-- ==== Sys2Proof/Word.lean ====
section
/-! DEFINITION. The bit-vector types of the block's registers and payload bytes (rules R15, R45). -/

namespace Sys2Proof

/-- One byte of the payload buffer (R45), of a text buffer (R18) or of a request (R81). -/
abbrev Byte := BitVec 8

/-- One host bus word: the width of the widest control register, `ARG` (R28). -/
abbrev Word16 := BitVec 16

end Sys2Proof
end

