-- ==== Sys2Proof/Syntax.lean ====
section
/-! DEFINITION. The operations of the block: one constructor per row of spec/opcode_table.json (R2, R91), with the
operands its row takes from `ARG` (R28, R83). Operands are mathematical integers (R10). -/

namespace Sys2Proof

/-- The version classes 1 to 5 (R68). Class 0 is no class: it has no meaning in the source (R68, R86). -/
inductive VClass where
  | v1 | v2 | v3 | v4 | v5
deriving DecidableEq, Repr

/-- The number of a class, on which every version-dependent rule compares (R68). -/
def VClass.num : VClass → Nat
  | .v1 => 1
  | .v2 => 2
  | .v3 => 3
  | .v4 => 4
  | .v5 => 5

/-- The sixteen operations (R91). -/
inductive Instr where
  /-- `REPORT.V1` (R125). -/
  | reportV1
  /-- `REPORT.V2` (R126). -/
  | reportV2
  /-- `REPORT.V3` (R127). -/
  | reportV3
  /-- `REPORT.V4` (R128). -/
  | reportV4
  /-- `REPORT.V5`, every version from 5 up (R129). -/
  | reportV5
  /-- `SUPPORTED.V1` (R147). -/
  | supportedV1
  /-- `SUPPORTED.V2` (R144). -/
  | supportedV2
  /-- `SUPPORTED.V3` (R145). -/
  | supportedV3
  /-- `SUPPORTED.V4`, classes 4 and 5 (R146). -/
  | supportedV4
  /-- `VALUE.S1` with precision `ARG[7:5]` and offset `ARG[15:8]` (R99). -/
  | valueS1 (prec off : Nat)
  /-- `VALUE.S2` (R100). -/
  | valueS2 (prec off : Nat)
  /-- `VALUE.S4` (R102). -/
  | valueS4 (prec off : Nat)
  /-- `PACKSCALE.V1` with the ScaleIndex `ARG[8:0]` (R151). -/
  | packScaleV1 (scale : Nat)
  /-- `PACKSCALE.V2` (R152). -/
  | packScaleV2 (scale : Nat)
  /-- `PACKSCALE.V3` (R153). -/
  | packScaleV3 (scale : Nat)
  /-- `PACKSCALE.V4`, classes 4 and 5 (R154). -/
  | packScaleV4 (scale : Nat)
deriving DecidableEq, Repr

end Sys2Proof
end

