-- ==== Sys2Proof/WellFormed.lean ====
section
/-! DEFINITION. Which operations can be commanded: the operand ranges of the `ARG` fields (R28, R83). -/

namespace Sys2Proof

/-- The precision fits `ARG[7:5]` and the offset fits `ARG[15:8]` (R28). -/
def valueOperandsFit (prec off : Nat) : Bool := decide (prec < 8) && decide (off < 256)

/-- The ScaleIndex fits `ARG[8:0]` (R28: 0..511 representable). -/
def scaleOperandFits (scale : Nat) : Bool := decide (scale < 512)

/-- An operation whose operands fit the fields of `ARG` they are read from. -/
def Instr.wellFormed : Instr → Bool
  | .reportV1 => true
  | .reportV2 => true
  | .reportV3 => true
  | .reportV4 => true
  | .reportV5 => true
  | .supportedV1 => true
  | .supportedV2 => true
  | .supportedV3 => true
  | .supportedV4 => true
  | .valueS1 prec off => valueOperandsFit prec off
  | .valueS2 prec off => valueOperandsFit prec off
  | .valueS4 prec off => valueOperandsFit prec off
  | .packScaleV1 scale => scaleOperandFits scale
  | .packScaleV2 scale => scaleOperandFits scale
  | .packScaleV3 scale => scaleOperandFits scale
  | .packScaleV4 scale => scaleOperandFits scale

end Sys2Proof
end

