-- ==== Sys2Proof/Decode.lean ====
section
/-! DEFINITION. How the command registers name an operation (R67 to R69, R83, R86, R91), and the encoder: the register
contents of a well-formed operation. `decode` is total on every content of the registers and rejects by name. -/

namespace Sys2Proof

/-- The command registers as they stand at `START` (R29): the words that encode an operation. -/
structure Command where
  /-- `OP[2:0]` (R25). -/
  op : BitVec 3
  /-- `VERSION` (R26). -/
  version : BitVec 8
  /-- `ARG` (R28). -/
  arg : BitVec 16
deriving DecidableEq, Repr

/-- Why register contents name no operation of the table (R91, last sentence). -/
inductive DecodeError where
  /-- `OP` is 0, 5, 6 or 7 (R86). -/
  | reservedOperation
  /-- `VALUE` with an element size other than 1, 2, 4 (R84). -/
  | illegalElementSize
  /-- A version-dependent operation with `VERSION = 0` (R86). -/
  | versionZero
deriving DecidableEq, Repr

/-- `v[hi:lo]`, the unsigned integer formed by bits `hi` down to `lo` (R8 and the notation table after R9). -/
def bitsOf (v hi lo : Nat) : Nat := (v >>> lo) % 2 ^ (hi + 1 - lo)

/-- The version class of a version number; none for 0 (R68). -/
def vclassOf (version : BitVec 8) : Option VClass :=
  match version.toNat with
  | 0 => none
  | 1 => some .v1
  | 2 => some .v2
  | 3 => some .v3
  | 4 => some .v4
  | _ => some .v5

/-- `VCLASS` as the number of R68, 0 for version 0. -/
def vclassNum (version : BitVec 8) : Nat :=
  match vclassOf version with
  | none => 0
  | some c => c.num

/-- `ARG[2:0]`, the element size of `VALUE` (R83). -/
def argSize (arg : BitVec 16) : Nat := bitsOf arg.toNat 2 0

/-- `ARG[7:5]`, the precision of `VALUE` (R83). -/
def argPrec (arg : BitVec 16) : Nat := bitsOf arg.toNat 7 5

/-- `ARG[15:8]`, the payload offset of `VALUE` (R83). -/
def argOff (arg : BitVec 16) : Nat := bitsOf arg.toNat 15 8

/-- `ARG[8:0]`, the ScaleIndex of `PACKSCALE` (R83). -/
def argScale (arg : BitVec 16) : Nat := bitsOf arg.toNat 8 0

/-- The `REPORT` rows (R91). -/
def decodeReport : VClass → Instr
  | .v1 => .reportV1
  | .v2 => .reportV2
  | .v3 => .reportV3
  | .v4 => .reportV4
  | .v5 => .reportV5

/-- The `SUPPORTED` rows; classes 4 and 5 share one (R91). -/
def decodeSupported : VClass → Instr
  | .v1 => .supportedV1
  | .v2 => .supportedV2
  | .v3 => .supportedV3
  | .v4 => .supportedV4
  | .v5 => .supportedV4

/-- The `PACKSCALE` rows; classes 4 and 5 share one (R91). -/
def decodePackScale (scale : Nat) : VClass → Instr
  | .v1 => .packScaleV1 scale
  | .v2 => .packScaleV2 scale
  | .v3 => .packScaleV3 scale
  | .v4 => .packScaleV4 scale
  | .v5 => .packScaleV4 scale

/-- The `VALUE` rows, by element size; the version plays no part (R86, R91). -/
def decodeValue (arg : BitVec 16) : Except DecodeError Instr :=
  match argSize arg with
  | 1 => .ok (.valueS1 (argPrec arg) (argOff arg))
  | 2 => .ok (.valueS2 (argPrec arg) (argOff arg))
  | 4 => .ok (.valueS4 (argPrec arg) (argOff arg))
  | _ => .error .illegalElementSize

/-- A version-dependent operation: the row of its class, or no outcome at `VERSION = 0` (R86). -/
def decodeVersioned (version : BitVec 8) (row : VClass → Instr) : Except DecodeError Instr :=
  match vclassOf version with
  | none => .error .versionZero
  | some c => .ok (row c)

/-- The operation that the command registers name (R67, R91); a reserved `OP` comes before anything else (R166). -/
def decode (c : Command) : Except DecodeError Instr :=
  match c.op.toNat with
  | 1 => decodeVersioned c.version decodeReport
  | 2 => decodeVersioned c.version decodeSupported
  | 3 => decodeValue c.arg
  | 4 => decodeVersioned c.version (decodePackScale (argScale c.arg))
  | _ => .error .reservedOperation

/-- `ARG` of `VALUE`: element size in bits 2:0, precision in 7:5, offset in 15:8, bits 4:3 written 0 (R28). -/
def encodeValueArg (size prec off : Nat) : BitVec 16 := BitVec.ofNat 16 (off * 256 + prec * 32 + size)

/-- The command registers of an operation (R67, R68, R28); what the operation ignores is written 0. -/
def encode : Instr → Command
  | .reportV1 => ⟨1, 1, 0⟩
  | .reportV2 => ⟨1, 2, 0⟩
  | .reportV3 => ⟨1, 3, 0⟩
  | .reportV4 => ⟨1, 4, 0⟩
  | .reportV5 => ⟨1, 5, 0⟩
  | .supportedV1 => ⟨2, 1, 0⟩
  | .supportedV2 => ⟨2, 2, 0⟩
  | .supportedV3 => ⟨2, 3, 0⟩
  | .supportedV4 => ⟨2, 4, 0⟩
  | .valueS1 prec off => ⟨3, 0, encodeValueArg 1 prec off⟩
  | .valueS2 prec off => ⟨3, 0, encodeValueArg 2 prec off⟩
  | .valueS4 prec off => ⟨3, 0, encodeValueArg 4 prec off⟩
  | .packScaleV1 scale => ⟨4, 1, BitVec.ofNat 16 scale⟩
  | .packScaleV2 scale => ⟨4, 2, BitVec.ofNat 16 scale⟩
  | .packScaleV3 scale => ⟨4, 3, BitVec.ofNat 16 scale⟩
  | .packScaleV4 scale => ⟨4, 4, BitVec.ofNat 16 scale⟩

/-- The selector word `SEL = OP[2:0] ++ VCLASS[2:0] ++ ARG[2:0]` (R69). -/
def selector (c : Command) : BitVec 9 :=
  BitVec.ofNat 9 (c.op.toNat * 64 + vclassNum c.version * 8 + argSize c.arg)

/-- The `mask` column of spec/opcode_table.json (R69, R91). -/
def rowMask : Instr → BitVec 9
  | .reportV1 => 0x1F8
  | .reportV2 => 0x1F8
  | .reportV3 => 0x1F8
  | .reportV4 => 0x1F8
  | .reportV5 => 0x1F8
  | .supportedV1 => 0x1F8
  | .supportedV2 => 0x1F8
  | .supportedV3 => 0x1F8
  | .supportedV4 => 0x1F0
  | .valueS1 _ _ => 0x1C7
  | .valueS2 _ _ => 0x1C7
  | .valueS4 _ _ => 0x1C7
  | .packScaleV1 _ => 0x1F8
  | .packScaleV2 _ => 0x1F8
  | .packScaleV3 _ => 0x1F8
  | .packScaleV4 _ => 0x1F0

/-- The `match` column of spec/opcode_table.json (R69, R91). -/
def rowMatch : Instr → BitVec 9
  | .reportV1 => 0x048
  | .reportV2 => 0x050
  | .reportV3 => 0x058
  | .reportV4 => 0x060
  | .reportV5 => 0x068
  | .supportedV1 => 0x088
  | .supportedV2 => 0x090
  | .supportedV3 => 0x098
  | .supportedV4 => 0x0A0
  | .valueS1 _ _ => 0x0C1
  | .valueS2 _ _ => 0x0C2
  | .valueS4 _ _ => 0x0C4
  | .packScaleV1 _ => 0x108
  | .packScaleV2 _ => 0x110
  | .packScaleV3 _ => 0x118
  | .packScaleV4 _ => 0x120

/-- The command registers a 9-bit selector word stands for: `OP`, the version whose class it names, and `ARG[2:0]`, the
other bits of `ARG` being 0 (R69). -/
def commandOfSelector (w : Nat) : Command :=
  ⟨BitVec.ofNat 3 (bitsOf w 8 6), BitVec.ofNat 8 (bitsOf w 5 3), BitVec.ofNat 16 (bitsOf w 2 0)⟩

/-- A selector whose class field is 6 or 7 occurs for no version (R68, R91); `VALUE` does not look at it. -/
def selectorClassExists (w : Nat) : Bool := decide (bitsOf w 8 6 = 3) || decide (bitsOf w 5 3 ≤ 5)

/-- The operation the decoder reads from a table word, which is the selector `SEL` (R69): bits 8:0 of `w`. -/
def decodeTableWord (_nbits w : Nat) : Option Instr :=
  if selectorClassExists w then
    match decode (commandOfSelector w) with
    | .ok i => some i
    | .error _ => none
  else none

end Sys2Proof
end

