-- ==== Sys2Proof/Config.lean ====
section
/-! DEFINITION. The parameters of the block (R6; `spec/93_implementation_defined.md` P1 to P6) as plain data, their
defaults, and the one free value: what a payload byte holds that nothing has written since reset (R35, U6). -/

namespace Sys2Proof

/-- Parameter `SIZE4_MSB` (R6, R101): what a 4-byte field with its top bit set decodes to. -/
inductive Size4Msb where
  | negative | positive | refuse
deriving DecidableEq, Repr

/-- Parameter `SUP_EXT_BASE` (R6, R80): the bitmap bit at which the first capability extension byte lands. -/
inductive SupExtBase where
  | seven | eight
deriving DecidableEq, Repr

/-- The parameters of R6. The registry function `reg_has` (R53) is held as plain data: R54 fixes it on every index below
80 and from `REG_MAX` up, so only its hits in `80 .. REG_MAX - 1` are listed. -/
structure Params where
  /-- P1, `SIZE4_MSB` (R101). -/
  size4Msb : Size4Msb
  /-- P2, `RATE_EXPORT` (R115). -/
  rateExport : BitVec 2
  /-- P3, `SUP_EXT_BASE` (R80, R141). -/
  supExtBase : SupExtBase
  /-- P4, `BITMAP_BITS`, at least 8 (R16, R141). -/
  bitmapBits : Nat
  /-- P5, `PACK_MARKER` (R154). -/
  packMarker : Byte
  /-- P6, `REG_MAX` (R54 (b)). -/
  regMax : Nat
  /-- P6, the FlatIndex values at or above 80 that the registry holds (R54 (c)), rising. -/
  regExtra : List Nat
deriving DecidableEq, Repr

/-- The ranges `spec/93_implementation_defined.md` section 2 gives the parameters. -/
abbrev Params.wf (p : Params) : Prop :=
  8 ≤ p.bitmapBits ∧ 80 ≤ p.regMax ∧ p.regExtra.Pairwise (· < ·) ∧ ∀ f ∈ p.regExtra, 80 ≤ f ∧ f < p.regMax

/-- The defaults of R6: `Negative`, 2, 8, 32, `0x38` and the registry `REG_MIN` (R54). -/
def Params.default : Params where
  size4Msb := .negative
  rateExport := 2
  supExtBase := .eight
  bitmapBits := 32
  packMarker := 0x38
  regMax := 80
  regExtra := []

/-- FREE VALUE (notes/assumptions/3.md). The byte at an index of the payload buffer that the host has not written since
the reset with the given number: R35 and U6 leave it any value. No body: nothing can be proved of it. -/
opaque Config.unwrittenByte : Nat → Nat → Byte

end Sys2Proof
end

