-- ==== Sys2Proof/Machine/State.lean ====
section
/-! DEFINITION. The state of the block (spec/10_state.md, spec/20_memory.md), how a step can stop, and reset. -/

namespace Sys2Proof.Machine

/-- How the machine stops with a fault. -/
inductive Fault where
  /-- Raised by a host write to a payload-buffer index of 255 or above, which does not exist (R45: indices 0 to 254).
  Safe: the spec gives the write no effect. -/
  | noSuchByte
deriving DecidableEq, Repr

/-- How the machine refuses to go on. The five `unspecified` outcomes of R181 are refused because R181 says a model must
refuse them; each is safe (nothing can be proved of a state that is not there). -/
inductive Refusal where
  /-- Raised by no instruction of this model: every arm of `exec` has its meaning. Safe. -/
  | notModelled (mnemonic : String)
  /-- Raised at `START` of `REPORT`, `SUPPORTED` or `PACKSCALE` with `VERSION = 0` (R86, U1). Safe. -/
  | versionZero
  /-- Raised by `VALUE` and `REPORT` on a 4-byte field with its top bit set under `SIZE4_MSB = Refuse` (R101, U2). Safe. -/
  | size4Msb
  /-- Raised by `REPORT` in class 4 or 5 on a scale-2 byte of 248 to 255 (R119, U3). Safe. -/
  | scale2Overflow
  /-- Raised by `SUPPORTED` in class 4 or 5 on an extension count above `MAX_EXT` (R141, U4). Safe. -/
  | bitmapOverflow
  /-- Raised by `PACKSCALE` in class 4 or 5 on an operand above 263 (R150, U5). Safe. -/
  | packScaleRange
deriving DecidableEq, Repr

/-- `PHASE` (R20). The four working phases are never observed (R22). -/
inductive Phase where
  | idle | parseHeader | parseNumeric | parsePrevious | validate | done | rejected
deriving DecidableEq, Repr

/-- The field at fault of `MalformedField`, `REASON.SUB` (R31, R160). -/
inductive FieldAtFault where
  | quantityType | rateType | elementSize
deriving DecidableEq, Repr

/-- The error kinds of R165. -/
inductive ErrorKind where
  /-- R160. -/
  | malformedField (field : FieldAtFault)
  /-- R161. -/
  | lengthMismatch
  /-- R162. -/
  | unresolvedIndex
  /-- R163: reserved for the host's own validator, never raised by the block. -/
  | implausibleReading
  /-- R164. -/
  | unsupportedOperation
deriving DecidableEq, Repr

/-- The outcome of evaluating a rule, or a part of one (R11): a result, a rejection, or no outcome at all. -/
inductive Eval (α : Type) where
  | ok (a : α)
  | reject (k : ErrorKind)
  | unspecified (r : Refusal)
deriving DecidableEq, Repr

/-- The payload buffer: the bytes the host has written since reset, as (index, byte) pairs. -/
abbrev Memory := List Host.Cell

/-- One access of the host to the block, or a reset (R29, R32, R45, R184). -/
inductive HostAction where
  /-- A write of `v` to control and status register `n` (R24). -/
  | writeCsr (n : Nat) (v : Word16)
  /-- A write of `b` to byte `k` of the payload buffer (R45). -/
  | writeByte (k : Nat) (b : Byte)
  /-- A read of any register, text buffer, float output or byte; it has no effect on the block (R24, R32, R56). -/
  | read
  /-- Reset (R184). -/
  | reset
deriving DecidableEq, Repr

/-- The outputs of an operation: result registers, text buffers, float outputs and result flags (R15 to R19, R23). -/
structure Results where
  /-- `x[0] QTYPE` -/
  qtype : BitVec 5
  /-- `x[1] RATE` -/
  rate : BitVec 2
  /-- `x[2] SIZE` -/
  size : BitVec 3
  /-- `x[3] PREC` -/
  prec : BitVec 3
  /-- `x[4] SCALE3` -/
  scale3 : BitVec 3
  /-- `x[5] SCALE` -/
  scale : BitVec 8
  /-- `x[6] EXT` -/
  ext : BitVec 8
  /-- `x[7] DELTA` -/
  delta : BitVec 16
  /-- `x[8] RAW`, two's complement -/
  raw : BitVec 64
  /-- `x[9] PRAW`, two's complement -/
  praw : BitVec 64
  /-- `x[10] FLATIDX`, two's complement -/
  flatidx : BitVec 16
  /-- `x[11] SUPMASK`, a natural of `BITMAP_BITS` bits (R16, R106 (g)) -/
  supmask : Nat
  /-- `x[12] RESMASK`, likewise -/
  resmask : Nat
  /-- `x[13] WARNMASK`, likewise -/
  warnmask : Nat
  /-- `x[14] PACKN` -/
  packn : BitVec 2
  /-- `x[15] PACKB`: first packed byte in bits 7:0, second in 15:8 -/
  packb : BitVec 16
  /-- `T0`, ASCII; `T0LEN` is its length (R18) -/
  t0 : List Byte
  /-- `T1` -/
  t1 : List Byte
  /-- `F0`, the bits of a binary64 (R19) -/
  f0 : BitVec 64
  /-- `F1` -/
  f1 : BitVec 64
  /-- flag `EXPORTING` (R23) -/
  exporting : Bool
  /-- flag `HASPREV` -/
  hasprev : Bool
  /-- flag `CANRESET` -/
  canreset : Bool
  /-- flag `WARN` -/
  warn : Bool
deriving DecidableEq, Repr

/-- Every output zero: their value after reset, after `CLEAR` and at `START` (R35, R29, R36). -/
def Results.zero : Results where
  qtype := 0
  rate := 0
  size := 0
  prec := 0
  scale3 := 0
  scale := 0
  ext := 0
  delta := 0
  raw := 0
  praw := 0
  flatidx := 0
  supmask := 0
  resmask := 0
  warnmask := 0
  packn := 0
  packb := 0
  t0 := []
  t1 := []
  f0 := 0
  f1 := 0
  exporting := false
  hasprev := false
  canreset := false
  warn := false

/-- What a `Done` operation writes: its outputs and the final cursor (R21, R36). -/
structure Completion where
  res : Results
  pos : BitVec 8
deriving DecidableEq, Repr

/-- The state of one block. -/
structure State where
  /-- `OP[2:0]`, csr 1 (R25). -/
  op : BitVec 3
  /-- `VERSION`, csr 2 (R26). -/
  version : BitVec 8
  /-- `LEN`, csr 3 (R27). -/
  len : BitVec 8
  /-- `ARG`, csr 4 (R28). -/
  arg : BitVec 16
  /-- `PHASE`, from which the status flags of csr 5 follow (R20, R23, R30). -/
  phase : Phase
  /-- `REASON`, csr 6 (R31). -/
  reason : BitVec 8
  /-- `POS`, the internal cursor (R21). -/
  pos : BitVec 8
  /-- Result registers, text buffers, float outputs, result flags. -/
  res : Results
  /-- `PB`, the payload buffer (R45). -/
  pb : Memory
  /-- THE MODEL's own: the parameters of this block (R6), which no step changes. -/
  params : Params
  /-- THE MODEL's own: how many resets this block has seen, so that each leaves payload bytes unknown afresh (R35). -/
  resets : Nat
  /-- THE MODEL's own: the host's accesses still to come, first one first. -/
  hostQueue : List HostAction
deriving DecidableEq, Repr

/-- The block right after reset (R35, R184), with the default parameters (R6) and no access of the host pending. -/
def State.reset : State where
  op := 0
  version := 0
  len := 0
  arg := 0
  phase := .idle
  reason := 0
  pos := 0
  res := Results.zero
  pb := []
  params := Params.default
  resets := 0
  hostQueue := []

end Sys2Proof.Machine
end

