-- ==== Sys2Proof/Machine/Ops.lean ====
section
/-! DEFINITION. The operations all meanings share: the payload buffer, big-endian assembly and the signed field, the
registry port, and how an operation ends (the commit rule R36; entering a rejection, R167; leaving it, R170). -/

namespace Sys2Proof.Machine

/-! ## The payload buffer -/

/-- `PB_BYTES`, the capacity of the payload buffer (R45). -/
def pbBytes : Nat := 255

/-- The byte written at index `k`, if the host wrote one since reset. -/
def memGet? : Memory → Nat → Option Byte
  | [], _ => none
  | (a, b) :: m, k => if a = k then some b else memGet? m k

/-- Write byte `b` at index `k`, keeping the indices strictly rising. -/
def memSet : Memory → Nat → Byte → Memory
  | [], k, b => [(k, b)]
  | (a, c) :: m, k, b =>
    if k < a then (k, b) :: (a, c) :: m
    else if k = a then (k, b) :: m
    else (a, c) :: memSet m k b

/-- The canonical form of the payload buffer: indices strictly rising and below `PB_BYTES`. An index not listed holds no
known byte, so no entry says what an unlisted index would say. -/
abbrev Memory.wf (m : Memory) : Prop := m.Pairwise (fun x y => x.1 < y.1) ∧ ∀ x ∈ m, x.1 < pbBytes

/-- `N`, the number of addressable payload bytes: `LEN - 1`, and 0 for `LEN = 0` (R47). -/
def addressable (s : State) : Nat := if s.len.toNat = 0 then 0 else s.len.toNat - 1

/-- `PB[k]` (R48). A byte the host has not written since reset is any value (U6): a free value of its own. -/
def readByte (s : State) (k : Nat) : Byte :=
  match memGet? s.pb k with
  | some b => b
  | none => Config.unwrittenByte s.resets k

/-- `MemRead(k, n)`: the bytes `PB[k] .. PB[k+n-1]`, first byte first (R9's notation table). -/
def readBytes (s : State) : Nat → Nat → List Byte
  | _, 0 => []
  | k, n + 1 => readByte s k :: readBytes s (k + 1) n

/-! ## Numeric fields -/

/-- `be(bytes)`: the big-endian unsigned value of a byte list (R50). -/
def beValue (bs : List Byte) : Nat := bs.foldl (fun a b => a * 256 + b.toNat) 0

/-- Bit 7 of the first byte of a field. -/
def topBit : List Byte → Bool
  | [] => false
  | b :: _ => b.toNat.testBit 7

/-- `sfield(bs, n)`: two's complement for 1 and 2 bytes (R98), `SIZE4_MSB` for 4 bytes with the top bit set (R101). -/
def signedField (p : Params) (bs : List Byte) : Eval Int :=
  if topBit bs then
    if bs.length = 4 then
      match p.size4Msb with
      | .negative => .ok ((beValue bs : Int) - 4294967296)
      | .positive => .ok (beValue bs)
      | .refuse => .unspecified .size4Msb
    else .ok ((beValue bs : Int) - 2 ^ (8 * bs.length))
  else .ok (beValue bs)

/-! ## Parameters -/

/-- The position `SUP_EXT_BASE` names (R6). -/
def supExtBit (p : Params) : Nat :=
  match p.supExtBase with
  | .seven => 7
  | .eight => 8

/-- `MAX_EXT = floor((BITMAP_BITS - SUP_EXT_BASE) / 8)` (R141). -/
def maxExt (p : Params) : Nat := (p.bitmapBits - supExtBit p) / 8

/-- The registry port `reg_has` (R53): every index in `0 .. 79` hits, none below 0 or from `REG_MAX` up does, and in
between the parameter answers (R54). -/
def regHas (p : Params) (f : Int) : Bool :=
  if f < 0 then false
  else if f < 80 then true
  else decide (f < p.regMax) && p.regExtra.contains f.toNat

/-- `FlatIndex = (QuantityType - 1) * 16 + ScaleIndex`, signed and without a clamp (R123, R142). -/
def flatIndex (qt scale : Nat) : Int := ((qt : Int) - 1) * 16 + scale

/-! ## How an operation runs and ends -/

/-- Evaluate one part, then the next; the first rejection or unspecified outcome ends it (R124). -/
def Eval.bind {α β : Type} (e : Eval α) (f : α → Eval β) : Eval β :=
  match e with
  | .ok a => f a
  | .reject k => .reject k
  | .unspecified r => .unspecified r

/-- `REASON.CODE` (R165). -/
def errorCode : ErrorKind → Nat
  | .malformedField _ => 1
  | .lengthMismatch => 2
  | .unresolvedIndex => 3
  | .implausibleReading => 4
  | .unsupportedOperation => 5

/-- `REASON.SUB` (R165). -/
def errorSub : ErrorKind → Nat
  | .malformedField .quantityType => 1
  | .malformedField .rateType => 2
  | .malformedField .elementSize => 3
  | .lengthMismatch => 0
  | .unresolvedIndex => 0
  | .implausibleReading => 0
  | .unsupportedOperation => 0

/-- The `REASON` register of a rejection: `CODE` in bits 3:0, `SUB` in bits 5:4 (R31). -/
def reasonOf (k : ErrorKind) : BitVec 8 := BitVec.ofNat 8 (errorSub k * 16 + errorCode k)

/-- The `Done` end of an operation: every output at once, `PHASE = DONE`, `REASON` cleared at `START` (R36). -/
def commitDone (s : State) (c : Completion) : State :=
  { s with phase := .done, reason := 0, pos := c.pos, res := c.res }

/-- Entering a rejection (R167): `PHASE = REJECTED`, `REASON` the kind, every output the zero written at `START`; nothing
else changes. -/
def enterRejected (s : State) (k : ErrorKind) : State :=
  { s with phase := .rejected, reason := reasonOf k, res := Results.zero }

/-- Leaving `DONE` or `REJECTED` by `CLEAR` (R29, R170): `IDLE`, no reason, no outputs. It differs from reset only in
leaving the inputs and the payload (R185), so the cursor is 0 too (notes/assumptions/5.md). -/
def clearBlock (s : State) : State :=
  { s with phase := .idle, reason := 0, pos := 0, res := Results.zero }

/-- Reset (R35, R184): as `State.reset`, for a block whose parameters stay and whose host goes on. The payload bytes are
unspecified afresh. -/
def resetBlock (s : State) : State :=
  { State.reset with params := s.params, resets := s.resets + 1, hostQueue := s.hostQueue }

/-- The end of an operation, from what its evaluation gave (R11, R36). -/
def finishOperation (s : State) (e : Eval Completion) : Host.Outcome State Fault Refusal :=
  match e with
  | .ok c => .next (commitDone s c)
  | .reject k => .next (enterRejected s k)
  | .unspecified r => .refused r

/-- A host write to the payload buffer (R45, R46). -/
def hostWriteByte (s : State) (k : Nat) (b : Byte) : Host.Outcome State Fault Refusal :=
  if k < pbBytes then .next { s with pb := memSet s.pb k b } else .fault .noSuchByte

end Sys2Proof.Machine
end

