-- ==== Sys2Proof/Machine/Operands.lean ====
section
/-! DEFINITION. The operand forms: the bit fields of the two payload kinds and the request field, per version class
(R71 to R83, R112 to R116, R138 to R140). -/

namespace Sys2Proof.Machine

/-! ## Report header -/

/-- Quantity type: `b1[4:0]` (R71, R83). -/
def qtypeField (b1 : Byte) : Nat := bitsOf b1.toNat 4 0

/-- Rate type: 0 in class 1, else `b1[6:5]` (R82). -/
def rateField (c : VClass) (b1 : Byte) : Nat := if c.num = 1 then 0 else bitsOf b1.toNat 6 5

/-- The high bit of the scale: `b1[7]` (R71). -/
def scaleHighField (b1 : Byte) : Nat := bitsOf b1.toNat 7 7

/-- Element size: `b2[2:0]` (R72, R83). -/
def sizeField (b2 : Byte) : Nat := bitsOf b2.toNat 2 0

/-- The low bits of the scale: `b2[4:3]` (R72). -/
def scaleLowField (b2 : Byte) : Nat := bitsOf b2.toNat 4 3

/-- Precision: `b2[7:5]` (R72, R83). -/
def precField (b2 : Byte) : Nat := bitsOf b2.toNat 7 5

/-- `SCALE3`: `b2[4:3]` in classes 1 and 2, `b1[7] ++ b2[4:3]` from class 3 (R75, R116). -/
def composedScale (c : VClass) (b1 b2 : Byte) : Nat :=
  if 3 ≤ c.num then scaleHighField b1 * 4 + scaleLowField b2 else scaleLowField b2

/-- The largest quantity-type ordinal a report of a class may carry (R112). -/
def maxQuantityType (c : VClass) : Nat := if c.num ≤ 3 then 3 else 5

/-- The quantity types a report of a class accepts (R112). -/
abbrev quantityTypeLegal (c : VClass) (qt : Nat) : Prop := 1 ≤ qt ∧ qt ≤ maxQuantityType c

/-- The rate types a report of a class accepts: classes 2 and 3 check `[0,4)` (R114). -/
abbrev rateLegal (c : VClass) (rate : Nat) : Prop := c.num = 2 ∨ c.num = 3 → rate < 4

/-- The element sizes: strictly 1, 2 or 4 (R84, R113). -/
abbrev elementSizeLegal (size : Nat) : Prop := size = 1 ∨ size = 2 ∨ size = 4

/-- The expected length figure of a report (R74). -/
def expectedLength (c : VClass) (size delta scale3 : Nat) : Nat :=
  4 + size + (if 2 ≤ c.num then 2 + (if delta = 0 then 0 else size) else 0)
    + (if 5 ≤ c.num ∧ scale3 = 7 then 1 else 0)

/-! ## Capability header -/

/-- canReset: `b1[7]` (R78, R138). -/
def canResetField (b1 : Byte) : Bool := b1.toNat.testBit 7

/-- The base bitmap of byte 2: 4 bits in class 2, 8 in class 3, 7 from class 4 (R79, R140). -/
def baseBitmap (c : VClass) (b2 : Byte) : Nat :=
  match c with
  | .v1 => 0
  | .v2 => bitsOf b2.toNat 3 0
  | .v3 => bitsOf b2.toNat 7 0
  | .v4 => bitsOf b2.toNat 6 0
  | .v5 => bitsOf b2.toNat 6 0

/-- The extension flag: `b2[7]` from class 4 (R79, R140). -/
def extensionFlag (c : VClass) (b2 : Byte) : Bool := decide (4 ≤ c.num) && b2.toNat.testBit 7

/-! ## Request scale field -/

/-- The one-byte request field: the low `bits` bits of the ScaleIndex, shifted left by 3 (R81). -/
def requestByte (bits scale : Nat) : Nat := (scale % 2 ^ bits) <<< 3

end Sys2Proof.Machine
end

