-- ==== Sys2Proof/Machine/Flags.lean ====
section
/-! DEFINITION. The flags and the status word (R20, R23, R30), and what the host reads of the registers (R15, R24). -/

namespace Sys2Proof.Machine

/-- The number of a phase (R20). -/
def phaseCode : Phase → Nat
  | .idle => 0
  | .parseHeader => 1
  | .parseNumeric => 2
  | .parsePrevious => 3
  | .validate => 4
  | .done => 5
  | .rejected => 6

/-- Status flag `BUSY`: a working phase (R23). -/
def busyFlag (s : State) : Bool := decide (1 ≤ phaseCode s.phase) && decide (phaseCode s.phase ≤ 4)

/-- Status flag and output signal `DONE` (R23, R172). -/
def doneFlag (s : State) : Bool := decide (phaseCode s.phase = 5)

/-- Status flag and output signal `REJ` (R23, R172). -/
def rejFlag (s : State) : Bool := decide (phaseCode s.phase = 6)

/-- Flag `EXPORTING`: class 2 or above and the designated rate type (R115). -/
def exportingFlag (p : Params) (c : VClass) (rate : Nat) : Bool :=
  decide (2 ≤ c.num) && decide (rate = p.rateExport.toNat)

/-- Flag `WARN`: some advertised index was not in the registry (R142). -/
def warnFlag (warnmask : Nat) : Bool := decide (warnmask ≠ 0)

/-- The word `STATUS` (R30). -/
def statusWord (s : State) : Word16 :=
  BitVec.ofNat 16 (phaseCode s.phase + 8 * (busyFlag s).toNat + 16 * (doneFlag s).toNat + 32 * (rejFlag s).toNat
    + 64 * s.res.warn.toNat + 128 * s.res.exporting.toNat + 256 * s.res.hasprev.toNat + 512 * s.res.canreset.toNat)

/-- What the host reads of control and status register `n`: `CTRL` and the numbers from 7 up read 0 (R24, R32). -/
def readCsr (s : State) (n : Nat) : Word16 :=
  match n with
  | 1 => s.op.setWidth 16
  | 2 => s.version.setWidth 16
  | 3 => s.len.setWidth 16
  | 4 => s.arg
  | 5 => statusWord s
  | 6 => s.reason.setWidth 16
  | _ => 0

/-- What the host reads of result register `x[i]`, as the integer it stands for (R15, R16). DESIGN CHOICE, unsafe
(notes/assumptions/14.md): a number from 16 up, which R15 does not name, reads 0. -/
def readResult (s : State) (i : Nat) : Int :=
  match i with
  | 0 => s.res.qtype.toNat
  | 1 => s.res.rate.toNat
  | 2 => s.res.size.toNat
  | 3 => s.res.prec.toNat
  | 4 => s.res.scale3.toNat
  | 5 => s.res.scale.toNat
  | 6 => s.res.ext.toNat
  | 7 => s.res.delta.toNat
  | 8 => s.res.raw.toInt
  | 9 => s.res.praw.toInt
  | 10 => s.res.flatidx.toInt
  | 11 => s.res.supmask
  | 12 => s.res.resmask
  | 13 => s.res.warnmask
  | 14 => s.res.packn.toNat
  | 15 => s.res.packb.toNat
  | _ => 0

/-- `T0LEN` (R18). -/
def t0len (s : State) : BitVec 4 := BitVec.ofNat 4 s.res.t0.length

/-- `T1LEN` (R18). -/
def t1len (s : State) : BitVec 4 := BitVec.ofNat 4 s.res.t1.length

end Sys2Proof.Machine
end

