-- ==== Sys2Proof/Machine/PackScale.lean ====
section
/-! DEFINITION. The operation `PACKSCALE` (R150 to R157). -/

namespace Sys2Proof.Machine

/-- The outputs of a completed `PACKSCALE`: `n` packed bytes, the first in `PACKB[7:0]`, the second in `PACKB[15:8]`
(R150). -/
def packResults (n b0 b1 : Nat) : Results :=
  { Results.zero with
    packn := BitVec.ofNat 2 n
    packb := BitVec.ofNat 16 (b1 * 256 + b0) }

/-- A `PACKSCALE` that completes. -/
def packDone (s : State) (n b0 b1 : Nat) : Eval Completion := .ok ⟨packResults n b0 b1, s.pos⟩

/-- The class-4 form: one byte up to the boundary 7, the marker and `scale - 8` up to 263, no outcome beyond (R154). -/
def evalPackScaleV4 (scale : Nat) (s : State) : Eval Completion :=
  if scale ≤ 7 then packDone s 1 (requestByte 3 scale) 0
  else if scale ≤ 263 then packDone s 2 s.params.packMarker.toNat (scale - 8)
  else .unspecified .packScaleRange

/-- `PACKSCALE.V1`: no scale byte, whatever the operand (R151). -/
def execPackScaleV1 (_scale : Nat) (s : State) : Host.Outcome State Fault Refusal :=
  finishOperation s (packDone s 0 0 0)

/-- `PACKSCALE.V2`: two bits at 4:3 (R152). -/
def execPackScaleV2 (scale : Nat) (s : State) : Host.Outcome State Fault Refusal :=
  finishOperation s (packDone s 1 (requestByte 2 scale) 0)

/-- `PACKSCALE.V3`: three bits at 5:3 (R153). -/
def execPackScaleV3 (scale : Nat) (s : State) : Host.Outcome State Fault Refusal :=
  finishOperation s (packDone s 1 (requestByte 3 scale) 0)

/-- `PACKSCALE.V4`, classes 4 and 5 (R154). -/
def execPackScaleV4 (scale : Nat) (s : State) : Host.Outcome State Fault Refusal :=
  finishOperation s (evalPackScaleV4 scale s)

end Sys2Proof.Machine
end

