-- ==== Sys2Proof/Machine/Numeric.lean ====
section
/-! DEFINITION. The text rendering and the float of a decoded value (R103 to R105), shared by `VALUE` and `REPORT`. -/

namespace Sys2Proof.Machine

/-- The ASCII code of a decimal digit. -/
def asciiDigit (d : Nat) : Byte := BitVec.ofNat 8 (48 + d)

/-- The ASCII minus sign. -/
def asciiMinus : Byte := 45

/-- The ASCII full stop. -/
def asciiPoint : Byte := 46

/-- The decimal digits of `v` padded with `0` to exactly `n` digits, of a `v` below `10^n` (R104). -/
def fixedDigits : Nat → Nat → List Byte
  | 0, _ => []
  | n + 1, v => fixedDigits n (v / 10) ++ [asciiDigit (v % 10)]

/-- The decimal digits of `v` without leading zeros, `0` itself as one digit (R104); `fuel` bounds their number. -/
def naturalDigits : Nat → Nat → List Byte
  | 0, _ => []
  | fuel + 1, v => if v < 10 then [asciiDigit v] else naturalDigits fuel (v / 10) ++ [asciiDigit (v % 10)]

/-- A bound on the digits of `|RAW|`: every 64-bit value has at most twenty (R16; R18 needs ten). -/
def maxDigits : Nat := 20

/-- The sign of a rendering: `-` only for a negative value (R104). -/
def renderSign (raw : Int) : List Byte := if raw < 0 then [asciiMinus] else []

/-- The fractional part of a rendering: nothing at precision 0, else the point and exactly `p` digits (R104). -/
def renderFraction (p fp : Nat) : List Byte := if p = 0 then [] else asciiPoint :: fixedDigits p fp

/-- `render(raw, p)`, the canonical decimal text (R104). -/
def render (raw : Int) (p : Nat) : List Byte :=
  renderSign raw ++ naturalDigits maxDigits (raw.natAbs / 10 ^ p) ++ renderFraction p (raw.natAbs % 10 ^ p)

/-- Division with rounding to the nearest natural, ties to even (R105). -/
def divNearestEven (a d : Nat) : Nat :=
  if d < 2 * (a % d) ∨ (2 * (a % d) = d ∧ a / d % 2 = 1) then a / d + 1 else a / d

/-- `L = floor(log2(m / d)) + 64` for `m / d` of at least `2^-64`: the scale the significand is taken at. -/
def quotientLog (m d : Nat) : Nat := Nat.log2 ((m <<< 64) / d)

/-- The binary64 bits of the number nearest to `m / d`, ties to even, for `0 < m < 2^32` and `d` a power of ten up to
`10^7` (R105): no subnormal or infinity arises there. A significand that rounds up to `2^53` carries into the exponent. -/
def positiveFloatBits (m d : Nat) : Nat :=
  (quotientLog m d + 959) * 2 ^ 52 + (divNearestEven (m <<< (116 - quotientLog m d)) d - 2 ^ 52)

/-- `tofloat(raw, p)`: the binary64 number nearest to `raw / 10^p`, ties to even; `+0.0` for 0 (R105). -/
def toFloat (raw : Int) (p : Nat) : BitVec 64 :=
  if raw = 0 then 0
  else BitVec.ofNat 64 ((if raw < 0 then 2 ^ 63 else 0) + positiveFloatBits raw.natAbs (10 ^ p))

end Sys2Proof.Machine
end

