-- ==== Sys2Proof/Machine/Report.lean ====
section
/-! DEFINITION. The operation `REPORT` (R111 to R133): the four working phases of R122 in order, for a version class. -/

namespace Sys2Proof.Machine

/-- The fields of the two header bytes (R71, R72, R112 to R116). -/
structure ReportHeader where
  qt : Nat
  rate : Nat
  exporting : Bool
  size : Nat
  prec : Nat
  scale3 : Nat
deriving DecidableEq, Repr

/-- What `PARSE_NUMERIC` yields: the primary value, delta-time, and the cursor after them (R117, R118, R21). -/
structure ReportNumeric where
  raw : Int
  delta : Nat
  pos : Nat
deriving DecidableEq, Repr

/-- What `PARSE_PREVIOUS` yields, or its placeholders when it is skipped (R121). -/
structure ReportPrevious where
  praw : Int
  hasprev : Bool
  pos : Nat
deriving DecidableEq, Repr

/-- The scale-2 byte and the resolved scale (R119). -/
structure ReportScale where
  ext : Nat
  scale : Nat
deriving DecidableEq, Repr

/-- `PARSE_HEADER`: from guard G1 to `scale3` (R122, R124). -/
def parseHeader (c : VClass) (s : State) : Eval ReportHeader :=
  if addressable s < 3 then .reject .lengthMismatch
  else if ¬ quantityTypeLegal c (qtypeField (readByte s 1)) then .reject (.malformedField .quantityType)
  else if ¬ rateLegal c (rateField c (readByte s 1)) then .reject (.malformedField .rateType)
  else if ¬ elementSizeLegal (sizeField (readByte s 2)) then .reject (.malformedField .elementSize)
  else .ok
    { qt := qtypeField (readByte s 1)
      rate := rateField c (readByte s 1)
      exporting := exportingFlag s.params c (rateField c (readByte s 1))
      size := sizeField (readByte s 2)
      prec := precField (readByte s 2)
      scale3 := composedScale c (readByte s 1) (readByte s 2) }

/-- The delta-time part of `PARSE_NUMERIC`: nothing in class 1, else two bytes at the cursor under guard G3
(R76, R118). -/
def parseDelta (c : VClass) (raw : Int) (pos : Nat) (s : State) : Eval ReportNumeric :=
  if c.num = 1 then .ok ⟨raw, 0, pos⟩
  else if addressable s < pos + 2 then .reject .lengthMismatch
  else .ok ⟨raw, beValue (readBytes s pos 2), pos + 2⟩

/-- `PARSE_NUMERIC`: the value field at index 3 under guard G2, then delta-time (R117, R118, R122). -/
def parseNumeric (c : VClass) (h : ReportHeader) (s : State) : Eval ReportNumeric :=
  if addressable s < 3 + h.size then .reject .lengthMismatch
  else (signedField s.params (readBytes s 3 h.size)).bind fun raw => parseDelta c raw (3 + h.size) s

/-- `PARSE_PREVIOUS`: entered iff delta-time is nonzero; the field at the cursor under guard G4 (R121, R122). -/
def parsePrevious (h : ReportHeader) (m : ReportNumeric) (s : State) : Eval ReportPrevious :=
  if m.delta = 0 then .ok ⟨0, false, m.pos⟩
  else if addressable s < m.pos + h.size then .reject .lengthMismatch
  else (signedField s.params (readBytes s m.pos h.size)).bind fun praw => .ok ⟨praw, true, m.pos + h.size⟩

/-- The resolved scale: from class 4 a composed 7 takes the last payload byte plus 8, which has no outcome from 248 up
(R119). -/
def resolveScale (c : VClass) (scale3 : Nat) (s : State) : Eval ReportScale :=
  if 4 ≤ c.num ∧ scale3 = 7 then
    if 248 ≤ (readByte s (addressable s - 1)).toNat then .unspecified .scale2Overflow
    else .ok ⟨(readByte s (addressable s - 1)).toNat, (readByte s (addressable s - 1)).toNat + 8⟩
  else .ok ⟨0, scale3⟩

/-- `VALIDATE`: the exact length, the scale, the registry (R120, R119, R123). -/
def validateReport (c : VClass) (h : ReportHeader) (m : ReportNumeric) (s : State) : Eval ReportScale :=
  if s.len.toNat ≠ expectedLength c h.size m.delta h.scale3 then .reject .lengthMismatch
  else (resolveScale c h.scale3 s).bind fun v =>
    if regHas s.params (flatIndex h.qt v.scale) then .ok v else .reject .unresolvedIndex

/-- The outputs of a completed `REPORT` (R124, R17). -/
def reportResults (h : ReportHeader) (m : ReportNumeric) (q : ReportPrevious) (v : ReportScale) : Results :=
  { Results.zero with
    qtype := BitVec.ofNat 5 h.qt
    rate := BitVec.ofNat 2 h.rate
    size := BitVec.ofNat 3 h.size
    prec := BitVec.ofNat 3 h.prec
    scale3 := BitVec.ofNat 3 h.scale3
    scale := BitVec.ofNat 8 v.scale
    ext := BitVec.ofNat 8 v.ext
    delta := BitVec.ofNat 16 m.delta
    raw := BitVec.ofInt 64 m.raw
    praw := BitVec.ofInt 64 q.praw
    flatidx := BitVec.ofInt 16 (flatIndex h.qt v.scale)
    t0 := render m.raw h.prec
    f0 := toFloat m.raw h.prec
    t1 := if q.hasprev then render q.praw h.prec else []
    f1 := if q.hasprev then toFloat q.praw h.prec else 0
    exporting := h.exporting
    hasprev := q.hasprev }

/-- `REPORT` for a version class (R124). -/
def evalReport (c : VClass) (s : State) : Eval Completion :=
  (parseHeader c s).bind fun h =>
  (parseNumeric c h s).bind fun m =>
  (parsePrevious h m s).bind fun q =>
  (validateReport c h m s).bind fun v =>
  .ok ⟨reportResults h m q v, BitVec.ofNat 8 q.pos⟩

/-- `REPORT.V1` (R125). -/
def execReportV1 (s : State) : Host.Outcome State Fault Refusal := finishOperation s (evalReport .v1 s)

/-- `REPORT.V2` (R126). -/
def execReportV2 (s : State) : Host.Outcome State Fault Refusal := finishOperation s (evalReport .v2 s)

/-- `REPORT.V3` (R127). -/
def execReportV3 (s : State) : Host.Outcome State Fault Refusal := finishOperation s (evalReport .v3 s)

/-- `REPORT.V4` (R128). -/
def execReportV4 (s : State) : Host.Outcome State Fault Refusal := finishOperation s (evalReport .v4 s)

/-- `REPORT.V5` (R129). -/
def execReportV5 (s : State) : Host.Outcome State Fault Refusal := finishOperation s (evalReport .v5 s)

end Sys2Proof.Machine
end

