-- ==== Sys2Proof/Machine/Supported.lean ====
section
/-! DEFINITION. The operation `SUPPORTED` (R137 to R149). -/

namespace Sys2Proof.Machine

/-- The `n` extension bytes from index `4 + j` on, OR'd into the bitmap, byte `j` at bit `SUP_EXT_BASE + 8 j`
(R80, R141). -/
def orExtension (s : State) : Nat → Nat → Nat → Nat
  | _, 0, mask => mask
  | j, n + 1, mask =>
    orExtension s (j + 1) n (mask ||| ((readByte s (4 + j)).toNat <<< (supExtBit s.params + 8 * j)))

/-- The extension of a bitmap whose flag is set: the count under its guard, its bound, the bytes under theirs (R141). -/
def extendBitmap (mask : Nat) (s : State) : Eval Nat :=
  if addressable s < 4 then .reject .lengthMismatch
  else if maxExt s.params < (readByte s 3).toNat then .unspecified .bitmapOverflow
  else if addressable s < 4 + (readByte s 3).toNat then .reject .lengthMismatch
  else .ok (orExtension s 0 (readByte s 3).toNat mask)

/-- The bits below `n` of a bitmap whose FlatIndex `base + i` answers `hit` in the registry (R142). -/
def splitMask (p : Params) (base : Int) (mask : Nat) (hit : Bool) : Nat → Nat
  | 0 => 0
  | i + 1 =>
    splitMask p base mask hit i ||| (if mask.testBit i && (regHas p (base + i) == hit) then 1 <<< i else 0)

/-- The outputs of a completed `SUPPORTED` (R142, R143, R17). -/
def supportedResults (p : Params) (qt : Nat) (canreset : Bool) (mask : Nat) : Results :=
  { Results.zero with
    qtype := BitVec.ofNat 5 qt
    flatidx := BitVec.ofInt 16 (flatIndex qt 0)
    supmask := mask
    resmask := splitMask p (flatIndex qt 0) mask true p.bitmapBits
    warnmask := splitMask p (flatIndex qt 0) mask false p.bitmapBits
    canreset := canreset
    warn := warnFlag (splitMask p (flatIndex qt 0) mask false p.bitmapBits) }

/-- The bitmap of the payload: byte 2, and the extension where its flag is set (R140, R141). -/
def composeBitmap (c : VClass) (s : State) : Eval Nat :=
  if extensionFlag c (readByte s 2) then extendBitmap (baseBitmap c (readByte s 2)) s
  else .ok (baseBitmap c (readByte s 2))

/-- `SUPPORTED` for a version class from 2 up (R143). -/
def evalSupported (c : VClass) (s : State) : Eval Completion :=
  if addressable s < 3 then .reject .lengthMismatch
  else if 5 < qtypeField (readByte s 1) then .reject (.malformedField .quantityType)
  else (composeBitmap c s).bind fun mask =>
    .ok ⟨supportedResults s.params (qtypeField (readByte s 1)) (canResetField (readByte s 1)) mask, s.pos⟩

/-- `SUPPORTED.V1`: always rejected, whatever the payload (R147). -/
def execSupportedV1 (s : State) : Host.Outcome State Fault Refusal := finishOperation s (.reject .unsupportedOperation)

/-- `SUPPORTED.V2` (R144). -/
def execSupportedV2 (s : State) : Host.Outcome State Fault Refusal := finishOperation s (evalSupported .v2 s)

/-- `SUPPORTED.V3` (R145). -/
def execSupportedV3 (s : State) : Host.Outcome State Fault Refusal := finishOperation s (evalSupported .v3 s)

/-- `SUPPORTED.V4`, classes 4 and 5 (R146). -/
def execSupportedV4 (s : State) : Host.Outcome State Fault Refusal := finishOperation s (evalSupported .v4 s)

end Sys2Proof.Machine
end

