-- ==== Sys2Proof/Machine/Value.lean ====
section
/-! DEFINITION. The operation `VALUE` (R97, R99, R100, R102). -/

namespace Sys2Proof.Machine

/-- The outputs of a completed `VALUE` (R97, R17). -/
def valueResults (size prec : Nat) (raw : Int) : Results :=
  { Results.zero with
    size := BitVec.ofNat 3 size
    prec := BitVec.ofNat 3 prec
    raw := BitVec.ofInt 64 raw
    t0 := render raw prec
    f0 := toFloat raw prec }

/-- `VALUE` with a legal element size (R97): the guard of R49, then the signed field. -/
def evalValue (size prec off : Nat) (s : State) : Eval Completion :=
  if off + size ≤ addressable s then
    (signedField s.params (readBytes s off size)).bind fun raw => .ok ⟨valueResults size prec raw, s.pos⟩
  else .reject .lengthMismatch

/-- `VALUE.S1` (R99). -/
def execValueS1 (prec off : Nat) (s : State) : Host.Outcome State Fault Refusal :=
  finishOperation s (evalValue 1 prec off s)

/-- `VALUE.S2` (R100). -/
def execValueS2 (prec off : Nat) (s : State) : Host.Outcome State Fault Refusal :=
  finishOperation s (evalValue 2 prec off s)

/-- `VALUE.S4` (R102). -/
def execValueS4 (prec off : Nat) (s : State) : Host.Outcome State Fault Refusal :=
  finishOperation s (evalValue 4 prec off s)

end Sys2Proof.Machine
end

