-- ==== Sys2Proof/Machine/Dispatch.lean ====
section
/-! DEFINITION. One arm per operation: its run from `START` to its end on the inputs the state holds (R22). -/

namespace Sys2Proof.Machine

def exec (i : Instr) (s : State) : Host.Outcome State Fault Refusal :=
  match i with
  | .reportV1 => Sys2Proof.Machine.execReportV1 s
  | .reportV2 => Sys2Proof.Machine.execReportV2 s
  | .reportV3 => Sys2Proof.Machine.execReportV3 s
  | .reportV4 => Sys2Proof.Machine.execReportV4 s
  | .reportV5 => Sys2Proof.Machine.execReportV5 s
  | .supportedV1 => Sys2Proof.Machine.execSupportedV1 s
  | .supportedV2 => Sys2Proof.Machine.execSupportedV2 s
  | .supportedV3 => Sys2Proof.Machine.execSupportedV3 s
  | .supportedV4 => Sys2Proof.Machine.execSupportedV4 s
  | .valueS1 prec off => Sys2Proof.Machine.execValueS1 prec off s
  | .valueS2 prec off => Sys2Proof.Machine.execValueS2 prec off s
  | .valueS4 prec off => Sys2Proof.Machine.execValueS4 prec off s
  | .packScaleV1 scale => Sys2Proof.Machine.execPackScaleV1 scale s
  | .packScaleV2 scale => Sys2Proof.Machine.execPackScaleV2 scale s
  | .packScaleV3 scale => Sys2Proof.Machine.execPackScaleV3 scale s
  | .packScaleV4 scale => Sys2Proof.Machine.execPackScaleV4 scale s

end Sys2Proof.Machine
end

