-- ==== Sys2Proof/Machine/Command.lean ====
section
/-! DEFINITION. What the host does to the block: register writes, the `START` and `CLEAR` strobes, payload writes, reads
and reset (R24 to R32, R45, R59, R184). -/

namespace Sys2Proof.Machine

/-- The command registers as `START` samples them (R29, R59). -/
def commandOf (s : State) : Command := ⟨s.op, s.version, s.arg⟩

/-- The `START` strobe (R29, R36): the operation the command registers name runs to completion; a reserved `OP` and an
illegal `VALUE` size are rejections (R84, R86), version 0 has no outcome (R86). -/
def startOperation (s : State) : Host.Outcome State Fault Refusal :=
  match decode (commandOf s) with
  | .ok i => exec i s
  | .error .reservedOperation => .next (enterRejected s .unsupportedOperation)
  | .error .illegalElementSize => .next (enterRejected s (.malformedField .elementSize))
  | .error .versionZero => .refused .versionZero

/-- A write to `CTRL`: bit 0 `START`, bit 1 `CLEAR`, `CLEAR` first when both are set (R29). -/
def writeCtrl (s : State) (v : Word16) : Host.Outcome State Fault Refusal :=
  match v.toNat.testBit 1, v.toNat.testBit 0 with
  | false, false => .next s
  | false, true => startOperation s
  | true, false => .next (clearBlock s)
  | true, true => startOperation (clearBlock s)

/-- A host write to control and status register `n`; `STATUS`, `REASON` and the numbers from 7 up ignore it
(R24 to R28, R32). -/
def writeCsr (s : State) (n : Nat) (v : Word16) : Host.Outcome State Fault Refusal :=
  match n with
  | 0 => writeCtrl s v
  | 1 => .next { s with op := v.setWidth 3 }
  | 2 => .next { s with version := v.setWidth 8 }
  | 3 => .next { s with len := v.setWidth 8 }
  | 4 => .next { s with arg := v }
  | _ => .next s

/-- One access of the host. -/
def hostStep (a : HostAction) (s : State) : Host.Outcome State Fault Refusal :=
  match a with
  | .writeCsr n v => writeCsr s n v
  | .writeByte k b => hostWriteByte s k b
  | .read => .next s
  | .reset => .next (resetBlock s)

/-- The command registers and the `START` strobe that make the next step run the operation of a selector word. -/
def placeCommand (s : State) (w : Nat) : State :=
  { s with
    op := (commandOfSelector w).op
    version := (commandOfSelector w).version
    arg := (commandOfSelector w).arg
    hostQueue := .writeCsr 0 1 :: s.hostQueue }

end Sys2Proof.Machine
end

