-- ==== Sys2Proof/Machine/Step.lean ====
section
/-! DEFINITION. One step: the next access of the host; with none pending the block holds its registers (R179). -/

namespace Sys2Proof.Machine

/-- One step of the block. -/
def step (s : State) : Host.Outcome State Fault Refusal :=
  match s.hostQueue with
  | [] => .next s
  | a :: rest => hostStep a { s with hostQueue := rest }

/-- The state whose next step runs the operation of table word `w`: the command registers hold it and the host's next
access is the `START` strobe (R29, R69). -/
def State.withFetchWord (s : State) (_nbits w : Nat) : State := placeCommand s w

end Sys2Proof.Machine
end

