-- ==== Sys2Proof/Safety.lean ====
section
/-! DEFINITION. The terms the statements use: what the host sees of an outcome, what holds of every state a run meets,
and what a text and a binary64 stand for. -/

namespace Sys2Proof.Machine

/-- The outputs and the outcome registers of a state: all a later reader of the block sees of an operation (R37, R178). -/
def hostView (s : State) : Phase × BitVec 8 × Results := (s.phase, s.reason, s.res)

/-- What the host sees of a step's outcome. -/
def outcomeView : Host.Outcome State Fault Refusal → Host.Outcome (Phase × BitVec 8 × Results) Fault Refusal
  | .next t => .next (hostView t)
  | .fault f => .fault f
  | .refused r => .refused r

/-- What holds of the block between any two steps. -/
structure BlockInv (s : State) : Prop where
  /-- The parameters lie in their ranges (spec/93_implementation_defined.md section 2). -/
  paramsLegal : s.params.wf
  /-- The payload buffer is in its canonical form, within the 255 bytes (R45). -/
  payloadCanonical : Memory.wf s.pb
  /-- No working phase is observed (R22). -/
  phaseVisible : s.phase = .idle ∨ s.phase = .done ∨ s.phase = .rejected
  /-- `REASON` is 0 whenever `REJ` is 0 (R31). -/
  noReason : s.phase ≠ .rejected → s.reason = 0
  /-- The reasons the block writes (R165); the rate-type reason never occurs (R114). -/
  reasonLegal : s.phase = .rejected → s.reason ∈ [(0x11 : BitVec 8), 0x31, 0x02, 0x03, 0x05]
  /-- Outputs are zero unless an operation is done (R36, R190). -/
  noPartialReading : s.phase ≠ .done → s.res = Results.zero
  /-- The cursor never exceeds 254 (R21). -/
  cursorBound : s.pos.toNat ≤ 254
  /-- `QTYPE` is at most the Cooling ordinal (R16). -/
  qtypeRange : s.res.qtype.toNat ≤ 5
  /-- `SIZE` is an element size, or 0 where no operation wrote it (R16, R17). -/
  sizeRange : s.res.size.toNat ∈ [0, 1, 2, 4]
  /-- The range of `RAW` (R16). -/
  rawRange : -2147483648 ≤ s.res.raw.toInt ∧ s.res.raw.toInt < 4294967296
  /-- The range of `PRAW` (R16). -/
  prawRange : -2147483648 ≤ s.res.praw.toInt ∧ s.res.praw.toInt < 4294967296
  /-- The range of `FLATIDX` (R16). -/
  flatRange : -16 ≤ s.res.flatidx.toInt ∧ s.res.flatidx.toInt ≤ 319
  /-- The bitmap fits its register (R16, R106 (g)). -/
  supmaskFits : s.res.supmask < 2 ^ s.params.bitmapBits
  /-- Every advertised index is resolved or warned (R142). -/
  maskCovers : s.res.resmask ||| s.res.warnmask = s.res.supmask
  /-- None is both (R142). -/
  maskDisjoint : s.res.resmask &&& s.res.warnmask = 0
  /-- `WARN` says whether some index was warned (R23). -/
  warnSays : s.res.warn = decide (s.res.warnmask ≠ 0)
  /-- `HASPREV` says whether delta-time is nonzero (R23). -/
  hasprevSays : s.res.hasprev = decide (s.res.delta ≠ 0)
  /-- Without a previous value its outputs are the placeholders (R37, R121). -/
  placeholder : s.res.hasprev = false → s.res.praw = 0 ∧ s.res.t1 = [] ∧ s.res.f1 = 0
  /-- The texts fit their buffers (R18). -/
  textFits : s.res.t0.length ≤ 12 ∧ s.res.t1.length ≤ 12
  /-- `PACKN` is 0, 1 or 2 (R16). -/
  packnRange : s.res.packn.toNat ≤ 2

/-- The number a list of ASCII digits writes in decimal. -/
def decimalValue (ds : List Byte) : Nat := ds.foldl (fun a d => a * 10 + (d.toNat - 48)) 0

/-- The exponent field of a binary64. -/
def floatExponent (b : BitVec 64) : Nat := b.toNat / 2 ^ 52 % 2048

/-- The fraction field of a binary64. -/
def floatFraction (b : BitVec 64) : Nat := b.toNat % 2 ^ 52

/-- The magnitude of a finite binary64, in units of `2^-1075`: subnormal at exponent field 0, normal elsewhere. -/
def floatUnits (b : BitVec 64) : Nat :=
  if floatExponent b = 0 then floatFraction b * 2 else (2 ^ 52 + floatFraction b) * 2 ^ floatExponent b

/-- The rational number a finite binary64 stands for. -/
def floatValue (b : BitVec 64) : ℚ := (if b.msb then -1 else 1) * (floatUnits b : ℚ) / 2 ^ 1075

end Sys2Proof.Machine
end

