-- ==== Sys2Proof/Certificates/Slice0/Obligations.lean ====
section
/-! DEFINITION. The statements for the provers. -/

open Sys2Proof Sys2Proof.Machine

/-! ## Encoding -/

/-- R67, R68, R28: the command registers the encoder writes for a well-formed operation decode to that operation. -/
def Obligations.DecodeInvertsEncode : Prop :=
  ∀ i : Instr, i.wellFormed = true → decode (encode i) = .ok i

/-- R69, R91: the selector's three fields, and that command registers decode to an operation of a table row exactly when
their selector meets the row's mask and match. -/
def Obligations.RowAppliesIffSelectorMatches : Prop :=
  ∀ (c : Command) (i : Instr),
    selector c = (c.op ++ BitVec.ofNat 3 (vclassNum c.version) ++ c.arg.extractLsb' 0 3 : BitVec 9) ∧
    ((∃ j, decode c = .ok j ∧ rowMask j = rowMask i ∧ rowMatch j = rowMatch i) ↔
      selector c &&& rowMask i = rowMatch i)

/-- R83, R28: the operands a decoded operation carries are the fields `ARG[7:5]`, `ARG[15:8]` and `ARG[8:0]`, and fit. -/
def Obligations.DecodedOperandsAreArgFields : Prop :=
  ∀ (c : Command) (i : Instr), decode c = .ok i →
    i.wellFormed = true ∧
    (∀ prec off, i = .valueS1 prec off ∨ i = .valueS2 prec off ∨ i = .valueS4 prec off →
      prec = (c.arg.extractLsb' 5 3).toNat ∧ off = (c.arg.extractLsb' 8 8).toNat) ∧
    (∀ sc, i = .packScaleV1 sc ∨ i = .packScaleV2 sc ∨ i = .packScaleV3 sc ∨ i = .packScaleV4 sc →
      sc = (c.arg.extractLsb' 0 9).toNat)

/-- R91, spec/95_test_vectors.md section 3: one word of each family, written out bit by bit, and the registers of two
lines of the programs there. That a table word is `SEL`, its class field standing for the version and the bits of `ARG`
above 2 for 0 (whence the operands 0, 0 and 3), is the model's choice (notes/assumptions/2.md). -/
def Obligations.WrittenWordsDecode : Prop :=
  decodeTableWord 16 0b001011000 = some .reportV3 ∧
  decodeTableWord 16 0b010100000 = some .supportedV4 ∧
  decodeTableWord 16 0b011000010 = some (.valueS2 0 0) ∧
  decodeTableWord 16 0b100101011 = some (.packScaleV4 3) ∧
  decode ⟨3, 0, 0x0342⟩ = .ok (.valueS2 2 3) ∧
  decode ⟨4, 5, 0x000B⟩ = .ok (.packScaleV4 11)

/-- R68: the version class is the version number, and 5 above 5; every version from 5 up behaves as 5. -/
def Obligations.VersionsAboveFiveFold : Prop :=
  ∀ c : Command, vclassNum c.version = min c.version.toNat 5 ∧
    (5 ≤ c.version.toNat → decode c = decode { c with version := 5 })

/-! ## The strobes, the registers and the buffer -/

/-- R22, R29, R86: at every `START` strobe the step is `startOperation` on the state whose host has made that access,
after the `CLEAR` the same write may carry; where the command registers decode to `i` it is `i`'s run there, a reserved
`OP` and an illegal `VALUE` size are rejected there, and version 0 has no outcome. -/
def Obligations.StepRunsDecodedOperation : Prop :=
  ∀ (s t : State) (v : Word16) (rest : List HostAction),
    s.hostQueue = .writeCsr 0 v :: rest → v.getLsbD 0 = true →
    t = (if v.getLsbD 1 then clearBlock { s with hostQueue := rest } else { s with hostQueue := rest }) →
    step s = startOperation t ∧
    (∀ i, decode (commandOf s) = .ok i → step s = exec i t) ∧
    (decode (commandOf s) = .error .reservedOperation →
      step s = .next { t with phase := .rejected, reason := 0x05, res := Results.zero }) ∧
    (decode (commandOf s) = .error .illegalElementSize →
      step s = .next { t with phase := .rejected, reason := 0x31, res := Results.zero }) ∧
    (decode (commandOf s) = .error .versionZero → step s = .refused .versionZero)

/-- R69: the state made for a table word runs exactly the operation the decoder reads from that word. -/
def Obligations.FetchWordRunsTableRow : Prop :=
  ∀ (s : State) (nbits w : Nat) (i : Instr), decodeTableWord nbits w = some i →
    step (s.withFetchWord nbits w) =
      exec i { s with op := (commandOfSelector w).op, version := (commandOfSelector w).version,
                      arg := (commandOfSelector w).arg }

/-- R86: a reserved `OP` rejects with `UnsupportedOperation` and touches nothing else; version 0 has no outcome for the
three version-dependent operations; `VALUE` does not depend on the version. -/
def Obligations.ReservedCommandValues : Prop :=
  (∀ s : State, s.op = 0 ∨ s.op = 5 ∨ s.op = 6 ∨ s.op = 7 →
    startOperation s = .next { s with phase := .rejected, reason := 0x05, res := Results.zero }) ∧
  (∀ s : State, s.op = 1 ∨ s.op = 2 ∨ s.op = 4 → s.version = 0 → startOperation s = .refused .versionZero) ∧
  (∀ (c : Command) (v : BitVec 8), c.op = 3 → decode c = decode { c with version := v })

/-- R84, R97: `VALUE` started with an element size other than 1, 2, 4 is rejected with `MalformedField(ElementSize)`,
whatever the length and the version. -/
def Obligations.ValueIllegalSizeRejects : Prop :=
  ∀ s : State, s.op = 3 → (s.arg.extractLsb' 0 3).toNat ∉ [1, 2, 4] →
    startOperation s = .next { s with phase := .rejected, reason := 0x31, res := Results.zero }

/-- R25 to R28, R32: a host write to `OP`, `VERSION`, `LEN` or `ARG` is read back within the register's width and changes
nothing else of the block. That the write carries 16 bits, of which a narrower register takes the low ones, is the model's
choice (notes/assumptions/8.md); for bits 7:3 of `OP` R25 says it. -/
def Obligations.HostWritesInputRegisters : Prop :=
  ∀ (s : State) (n : Nat) (v : Word16) (rest : List HostAction), s.hostQueue = .writeCsr n v :: rest → 1 ≤ n → n ≤ 4 →
    ∃ t, step s = .next t ∧
      readCsr t n = (if n = 1 then v &&& 0x0007 else if n = 4 then v else v &&& 0x00FF) ∧
      (∀ m, m ≠ n → readCsr t m = readCsr s m) ∧
      t = { s with hostQueue := rest, op := t.op, version := t.version, len := t.len, arg := t.arg }

/-- R24, R29, R32, R56: a write to `STATUS`, `REASON` or a number from 7 up, a `CTRL` write with neither strobe and a host
read leave the block as it is; `CTRL` and the numbers from 7 up read 0. That a step with no access pending leaves it too
is the model's choice (notes/assumptions/2.md, after R179: the block holds its registers), and so is that a `CTRL` write
has bits 15:8 to ignore (notes/assumptions/8.md). -/
def Obligations.OtherAccessesHaveNoEffect : Prop :=
  (∀ (s : State) (n : Nat) (v : Word16) (rest : List HostAction), s.hostQueue = .writeCsr n v :: rest →
    5 ≤ n ∨ (n = 0 ∧ v.getLsbD 0 = false ∧ v.getLsbD 1 = false) → step s = .next { s with hostQueue := rest }) ∧
  (∀ (s : State) (rest : List HostAction), s.hostQueue = .read :: rest → step s = .next { s with hostQueue := rest }) ∧
  (∀ s : State, s.hostQueue = [] → step s = .next s) ∧
  (∀ (s : State) (n : Nat), n = 0 ∨ 7 ≤ n → readCsr s n = 0)

/-- R29, R170, R185: `CLEAR` alone returns the block to `IDLE` with no reason and no result and leaves the inputs and the
payload; that it puts the cursor at 0 is deduced from R185 (notes/assumptions/5.md). -/
def Obligations.ClearReturnsToIdle : Prop :=
  ∀ (s : State) (v : Word16) (rest : List HostAction), s.hostQueue = .writeCsr 0 v :: rest →
    v.getLsbD 1 = true → v.getLsbD 0 = false →
    step s = .next { s with hostQueue := rest, phase := .idle, reason := 0, pos := 0, res := Results.zero }

/-- R29, R36: an operation run after `CLEAR` ends as it ends without, but for the cursor it starts from, since `START`
clears the same outputs (the cursor: notes/assumptions/5.md). -/
def Obligations.ClearBeforeStartIsAbsorbed : Prop :=
  ∀ (i : Instr) (s : State), exec i (clearBlock s) = exec i { s with pos := 0 }

/-- R35: the values of the block after reset. That a payload byte is then the free value `Config.unwrittenByte` is the
model's choice (notes/assumptions/3.md), and so is what a result register number from 16 up reads
(notes/assumptions/14.md). -/
def Obligations.ResetValues : Prop :=
  (∀ n, readCsr State.reset n = 0) ∧ (∀ i, readResult State.reset i = 0) ∧ State.reset.phase = .idle ∧
  t0len State.reset = 0 ∧ t1len State.reset = 0 ∧ State.reset.res.t0 = [] ∧ State.reset.res.t1 = [] ∧
  State.reset.res.f0 = 0 ∧ State.reset.res.f1 = 0 ∧ State.reset.pos = 0 ∧ addressable State.reset = 0 ∧
  ∀ k, readByte State.reset k = Config.unwrittenByte 0 k

/-- R184, R185: a reset at any time leaves every register as after power-on and no payload byte addressable. The
parameters, the count of resets and the host's further accesses are the model's own fields. -/
def Obligations.ResetClearsTheBlock : Prop :=
  ∀ (s : State) (rest : List HostAction), s.hostQueue = .reset :: rest →
    ∃ t, step s = .next t ∧ t.phase = .idle ∧ t.reason = 0 ∧ t.op = 0 ∧ t.version = 0 ∧ t.len = 0 ∧ t.arg = 0 ∧
      t.pos = 0 ∧ t.res = Results.zero ∧ addressable t = 0 ∧ t.hostQueue = rest ∧ t.params = s.params

/-- R45, R46, R56: a host write to a byte below 255 is what the block then reads there, leaves every other byte and every
register as it was and keeps the canonical form; an index from 255 up does not exist. -/
def Obligations.PayloadWriteThenRead : Prop :=
  ∀ (s : State) (k : Nat) (b : Byte) (rest : List HostAction), s.hostQueue = .writeByte k b :: rest →
    (k < 255 → ∃ t, step s = .next t ∧ readByte t k = b ∧ (∀ j, j ≠ k → readByte t j = readByte s j) ∧
      (Memory.wf s.pb → Memory.wf t.pb) ∧ t = { s with hostQueue := rest, pb := t.pb }) ∧
    (255 ≤ k → step s = .fault .noSuchByte)

/-- R20, R30, R31, R165: what the host reads of csr 5 and csr 6: the place of every phase, flag and reason, that the
reserved bits read 0, and that the result flags are up only while `DONE` is and a reason stands only while `REJ` is. -/
def Obligations.StatusWordBits : Prop :=
  ∀ s : State,
    (s.phase = .idle → (readCsr s 5).toNat % 8 = 0) ∧ (s.phase = .parseHeader → (readCsr s 5).toNat % 8 = 1) ∧
    (s.phase = .parseNumeric → (readCsr s 5).toNat % 8 = 2) ∧ (s.phase = .parsePrevious → (readCsr s 5).toNat % 8 = 3) ∧
    (s.phase = .validate → (readCsr s 5).toNat % 8 = 4) ∧ (s.phase = .done → (readCsr s 5).toNat % 8 = 5) ∧
    (s.phase = .rejected → (readCsr s 5).toNat % 8 = 6) ∧
    (readCsr s 5).getLsbD 3 = decide (s.phase ∈ [.parseHeader, .parseNumeric, .parsePrevious, .validate]) ∧
    (readCsr s 5).getLsbD 4 = decide (s.phase = .done) ∧ (readCsr s 5).getLsbD 5 = decide (s.phase = .rejected) ∧
    (readCsr s 5).getLsbD 6 = s.res.warn ∧ (readCsr s 5).getLsbD 7 = s.res.exporting ∧
    (readCsr s 5).getLsbD 8 = s.res.hasprev ∧ (readCsr s 5).getLsbD 9 = s.res.canreset ∧
    (∀ i, 10 ≤ i → (readCsr s 5).getLsbD i = false) ∧
    ((readCsr s 5).getLsbD 4 && (readCsr s 5).getLsbD 5) = false ∧
    (BlockInv s → (readCsr s 5).getLsbD 3 = false ∧
      ∀ i, 6 ≤ i → (readCsr s 5).getLsbD i = true → (readCsr s 5).getLsbD 4 = true) ∧
    (∀ i, (readCsr s 6).getLsbD i = s.reason.getLsbD i) ∧
    readCsr (enterRejected s (.malformedField .quantityType)) 6 = 0x11 ∧
    readCsr (enterRejected s (.malformedField .rateType)) 6 = 0x21 ∧
    readCsr (enterRejected s (.malformedField .elementSize)) 6 = 0x31 ∧
    readCsr (enterRejected s .lengthMismatch) 6 = 0x02 ∧ readCsr (enterRejected s .unresolvedIndex) 6 = 0x03 ∧
    readCsr (enterRejected s .implausibleReading) 6 = 0x04 ∧ readCsr (enterRejected s .unsupportedOperation) 6 = 0x05 ∧
    (BlockInv s → ((readCsr s 5).getLsbD 5 = false → readCsr s 6 = 0) ∧
      ∀ i, 6 ≤ i → (readCsr s 6).getLsbD i = false)

/-- R15, R16, R18: which output the host reads at each of the sixteen result register numbers, and that the text lengths
are those of the texts. -/
def Obligations.ResultRegisterNumbers : Prop :=
  ∀ s : State,
    readResult s 0 = s.res.qtype.toNat ∧ readResult s 1 = s.res.rate.toNat ∧ readResult s 2 = s.res.size.toNat ∧
    readResult s 3 = s.res.prec.toNat ∧ readResult s 4 = s.res.scale3.toNat ∧ readResult s 5 = s.res.scale.toNat ∧
    readResult s 6 = s.res.ext.toNat ∧ readResult s 7 = s.res.delta.toNat ∧ readResult s 8 = s.res.raw.toInt ∧
    readResult s 9 = s.res.praw.toInt ∧ readResult s 10 = s.res.flatidx.toInt ∧ readResult s 11 = s.res.supmask ∧
    readResult s 12 = s.res.resmask ∧ readResult s 13 = s.res.warnmask ∧ readResult s 14 = s.res.packn.toNat ∧
    readResult s 15 = s.res.packb.toNat ∧
    (BlockInv s → (t0len s).toNat = s.res.t0.length ∧ (t1len s).toNat = s.res.t1.length)

/-- R54: the registry holds every index from 0 to 79, none below 0 and none from `REG_MAX` up; between them the parameter
is free to hold any; the default holds the 80 alone. -/
def Obligations.RegistryConstraints : Prop :=
  (∀ (p : Params) (f : Int), p.wf →
    (0 ≤ f → f < 80 → regHas p f = true) ∧ (f < 0 → regHas p f = false) ∧
    ((p.regMax : Int) ≤ f → regHas p f = false)) ∧
  (∀ (m : Nat) (g : Nat → Bool), 80 ≤ m → ∃ p : Params, p.wf ∧ p.regMax = m ∧
    ∀ f : Nat, 80 ≤ f → f < m → regHas p f = g f) ∧
  Params.default.regMax = 80 ∧ (∀ f : Int, regHas Params.default f = decide (0 ≤ f ∧ f < 80))

/-! ## The machine as a whole -/

/-- The invariant holds of the reset state. -/
def Obligations.InvariantAtReset : Prop := BlockInv State.reset

/-- Every step of the block, from any state that meets it, keeps the invariant. -/
def Obligations.EveryStepKeepsInvariant : Prop :=
  ∀ s t : State, BlockInv s → step s = .next t → BlockInv t

/-- R33: what `START` does is a function of `OP`, `VERSION`, `LEN`, `ARG`, the addressable payload bytes and the registry
alone; nothing of an earlier operation and no byte from index `N` on plays a part. -/
def Obligations.OutcomeDependsOnSnapshotAlone : Prop :=
  ∀ s t : State, s.op = t.op → s.version = t.version → s.len = t.len → s.arg = t.arg → s.params = t.params →
    (∀ k, k < addressable s → readByte s k = readByte t k) →
    outcomeView (startOperation s) = outcomeView (startOperation t)

/-- R46, R36, R167: an operation changes only `PHASE`, `REASON`, the outputs and the cursor; it ends done with no reason,
or rejected with every output zero and the cursor as it was. -/
def Obligations.OperationWritesOutputsOnly : Prop :=
  ∀ (i : Instr) (s t : State), exec i s = .next t →
    t = { s with phase := t.phase, reason := t.reason, pos := t.pos, res := t.res } ∧
    (∀ k, readByte t k = readByte s k) ∧
    ((t.phase = .done ∧ t.reason = 0) ∨
     (t.phase = .rejected ∧ t.reason ≠ 0 ∧ t.res = Results.zero ∧ t.pos = s.pos))

/-- R17: the outputs an operation does not write are zero after it. -/
def Obligations.UnwrittenOutputsStayZero : Prop :=
  (∀ (c : VClass) (s t : State), exec (decodeReport c) s = .next t →
    t.res = { t.res with supmask := 0, resmask := 0, warnmask := 0, packn := 0, packb := 0, canreset := false, warn := false }) ∧
  (∀ (c : VClass) (s t : State), exec (decodeSupported c) s = .next t →
    t.res = { Results.zero with
      qtype := t.res.qtype, flatidx := t.res.flatidx, supmask := t.res.supmask, resmask := t.res.resmask,
      warnmask := t.res.warnmask, canreset := t.res.canreset, warn := t.res.warn }) ∧
  (∀ (prec off : Nat) (i : Instr) (s t : State), i = .valueS1 prec off ∨ i = .valueS2 prec off ∨ i = .valueS4 prec off →
    exec i s = .next t →
    t.res = { Results.zero with size := t.res.size, prec := t.res.prec, raw := t.res.raw, t0 := t.res.t0, f0 := t.res.f0 }) ∧
  (∀ (c : VClass) (sc : Nat) (s t : State), exec (decodePackScale sc c) s = .next t →
    t.res = { Results.zero with packn := t.res.packn, packb := t.res.packb })

/-- R85: neither `REPORT` nor `SUPPORTED` inspects the command-id byte `PB[0]`. -/
def Obligations.CommandByteIsIgnored : Prop :=
  ∀ (c : VClass) (s : State) (b : Byte),
    outcomeView (exec (decodeReport c) { s with pb := memSet s.pb 0 b }) = outcomeView (exec (decodeReport c) s) ∧
    outcomeView (exec (decodeSupported c) { s with pb := memSet s.pb 0 b }) = outcomeView (exec (decodeSupported c) s)

/-! ## VALUE and the numeric field -/

/-- R98, R101: the signed value of a field of 1, 2 or 4 bytes, and the default of `SIZE4_MSB`. -/
def Obligations.SignedFieldValue : Prop :=
  (∀ (p : Params) (b : Byte), signedField p [b] = .ok b.toInt) ∧
  (∀ (p : Params) (b c : Byte), signedField p [b, c] = .ok (b ++ c : BitVec 16).toInt) ∧
  (∀ (p : Params) (b c d e : Byte),
    (b.msb = false → signedField p [b, c, d, e] = .ok ((b ++ c ++ d ++ e : BitVec 32).toNat : Int)) ∧
    (b.msb = true → p.size4Msb = .negative → signedField p [b, c, d, e] = .ok (b ++ c ++ d ++ e : BitVec 32).toInt) ∧
    (b.msb = true → p.size4Msb = .positive →
      signedField p [b, c, d, e] = .ok ((b ++ c ++ d ++ e : BitVec 32).toNat : Int)) ∧
    (b.msb = true → p.size4Msb = .refuse → signedField p [b, c, d, e] = .unspecified .size4Msb)) ∧
  Params.default.size4Msb = .negative

/-- R99: `VALUE.S1` on an addressable byte, with everything it leaves unchanged. -/
def Obligations.ValueS1Completes : Prop :=
  ∀ (s : State) (prec off : Nat), prec < 8 → off + 1 ≤ addressable s →
    exec (.valueS1 prec off) s = .next { s with
      phase := .done, reason := 0,
      res := { Results.zero with
        size := 1, prec := BitVec.ofNat 3 prec, raw := (readByte s off).signExtend 64,
        t0 := render (readByte s off).toInt prec, f0 := toFloat (readByte s off).toInt prec } }

/-- R100: `VALUE.S2` on two addressable bytes, big-endian, with everything it leaves unchanged. -/
def Obligations.ValueS2Completes : Prop :=
  ∀ (s : State) (prec off : Nat) (w : BitVec 16), prec < 8 → off + 2 ≤ addressable s →
    w = readByte s off ++ readByte s (off + 1) →
    exec (.valueS2 prec off) s = .next { s with
      phase := .done, reason := 0,
      res := { Results.zero with
        size := 2, prec := BitVec.ofNat 3 prec, raw := w.signExtend 64, t0 := render w.toInt prec, f0 := toFloat w.toInt prec } }

/-- R102: `VALUE.S4` on four addressable bytes, for each choice of `SIZE4_MSB`, with everything it leaves unchanged; it
has no outcome only where the choice is `Refuse` and the top bit is set. -/
def Obligations.ValueS4Completes : Prop :=
  ∀ (s : State) (prec off : Nat) (w : BitVec 32), prec < 8 → off + 4 ≤ addressable s →
    w = readByte s off ++ readByte s (off + 1) ++ readByte s (off + 2) ++ readByte s (off + 3) →
    (w.msb = false ∨ s.params.size4Msb = .negative →
      exec (.valueS4 prec off) s = .next { s with
        phase := .done, reason := 0,
        res := { Results.zero with
          size := 4, prec := BitVec.ofNat 3 prec, raw := w.signExtend 64, t0 := render w.toInt prec,
          f0 := toFloat w.toInt prec } }) ∧
    (w.msb = true → s.params.size4Msb = .positive →
      exec (.valueS4 prec off) s = .next { s with
        phase := .done, reason := 0,
        res := { Results.zero with
          size := 4, prec := BitVec.ofNat 3 prec, raw := w.setWidth 64, t0 := render w.toNat prec,
          f0 := toFloat w.toNat prec } }) ∧
    (w.msb = true → s.params.size4Msb = .refuse → exec (.valueS4 prec off) s = .refused .size4Msb)

/-- R97, R49: a `VALUE` whose field runs past the addressable bytes is rejected with `LengthMismatch`. -/
def Obligations.ValuePastPayloadRejects : Prop :=
  ∀ (s : State) (prec off : Nat),
    (addressable s < off + 1 → exec (.valueS1 prec off) s = .next { s with phase := .rejected, reason := 0x02, res := Results.zero }) ∧
    (addressable s < off + 2 → exec (.valueS2 prec off) s = .next { s with phase := .rejected, reason := 0x02, res := Results.zero }) ∧
    (addressable s < off + 4 → exec (.valueS4 prec off) s = .next { s with phase := .rejected, reason := 0x02, res := Results.zero })

/-- R104: the shape of a rendering and the number it writes. -/
def Obligations.RenderingWritesTheValue : Prop :=
  ∀ (raw : Int) (p : Nat), raw.natAbs < 10 ^ 20 →
    ∃ ip fp : List Byte,
      render raw p = (if raw < 0 then [0x2D] else []) ++ ip ++ (if p = 0 then [] else 0x2E :: fp) ∧
      fp.length = p ∧ (∀ d ∈ ip ++ fp, 0x30 ≤ d.toNat ∧ d.toNat ≤ 0x39) ∧
      decimalValue ip = raw.natAbs / 10 ^ p ∧ decimalValue fp = raw.natAbs % 10 ^ p ∧
      decimalValue (ip ++ fp) = raw.natAbs ∧ ip ≠ [] ∧ (ip.head? = some 0x30 → ip = [0x30])

/-- R18, R104: every rendering of a decodable value has 1 to 12 characters. -/
def Obligations.RenderingFitsTheBuffer : Prop :=
  ∀ (raw : Int) (p : Nat), -2147483648 ≤ raw → raw < 4294967296 → p ≤ 7 →
    1 ≤ (render raw p).length ∧ (render raw p).length ≤ 12

/-- R105: the float of a decoded value is a binary64 nearest to `raw / 10^p`, the even one where two are equally near,
and `+0.0` for 0; it is never an infinity, a NaN or a subnormal. That the float outputs are modelled at all is the model's
choice, and their 64-bit encoding is presumed to be the standard's (notes/assumptions/13.md). -/
def Obligations.FloatIsNearest : Prop :=
  ∀ (raw : Int) (p : Nat), raw.natAbs < 2 ^ 32 → p ≤ 7 →
    (raw = 0 → toFloat raw p = 0) ∧
    (raw ≠ 0 → 1 ≤ floatExponent (toFloat raw p) ∧ floatExponent (toFloat raw p) < 2047 ∧
      (toFloat raw p).msb = decide (raw < 0) ∧
      ∀ b : BitVec 64, floatExponent b < 2047 →
        |floatValue (toFloat raw p) - (raw : ℚ) / 10 ^ p| ≤ |floatValue b - (raw : ℚ) / 10 ^ p| ∧
        (|floatValue (toFloat raw p) - (raw : ℚ) / 10 ^ p| = |floatValue b - (raw : ℚ) / 10 ^ p| →
          b ≠ toFloat raw p → (toFloat raw p).getLsbD 0 = false))

/-! ## REPORT -/

/-- R125: a well-formed version-1 report. -/
def Obligations.ReportV1Completes : Prop :=
  ∀ (s : State) (qt size prec scale3 : Nat) (raw : Int),
    qt = (readByte s 1).toNat % 32 → size = (readByte s 2).toNat % 8 → prec = (readByte s 2).toNat / 32 →
    scale3 = (readByte s 2).toNat / 8 % 4 →
    1 ≤ qt → qt ≤ 3 → size = 1 ∨ size = 2 ∨ size = 4 → s.len.toNat = 4 + size →
    signedField s.params (readBytes s 3 size) = .ok raw →
    ∃ pos, exec .reportV1 s = .next { s with
      phase := .done, reason := 0, pos := pos,
      res := { Results.zero with
        qtype := BitVec.ofNat 5 qt, size := BitVec.ofNat 3 size, prec := BitVec.ofNat 3 prec,
        scale3 := BitVec.ofNat 3 scale3, scale := BitVec.ofNat 8 scale3, raw := BitVec.ofInt 64 raw,
        flatidx := BitVec.ofInt 16 (((qt : Int) - 1) * 16 + scale3), t0 := render raw prec, f0 := toFloat raw prec } }

/-- R126, R127: a well-formed report of version 2 or 3, which differ in the high bit of the scale only. -/
def Obligations.ReportV2AndV3Complete : Prop :=
  ∀ (s : State) (qt rate size prec low high delta : Nat) (raw praw : Int),
    qt = (readByte s 1).toNat % 32 → rate = (readByte s 1).toNat / 32 % 4 → high = (readByte s 1).toNat / 128 →
    size = (readByte s 2).toNat % 8 → prec = (readByte s 2).toNat / 32 → low = (readByte s 2).toNat / 8 % 4 →
    delta = (readByte s (3 + size)).toNat * 256 + (readByte s (4 + size)).toNat →
    1 ≤ qt → qt ≤ 3 → size = 1 ∨ size = 2 ∨ size = 4 →
    s.len.toNat = 6 + size + (if delta = 0 then 0 else size) →
    signedField s.params (readBytes s 3 size) = .ok raw →
    (if delta = 0 then praw = 0 else signedField s.params (readBytes s (5 + size) size) = .ok praw) →
    ∀ (i : Instr) (scale3 : Nat), (i = .reportV2 ∧ scale3 = low) ∨ (i = .reportV3 ∧ scale3 = high * 4 + low) →
    ∃ pos, exec i s = .next { s with
      phase := .done, reason := 0, pos := pos,
      res := { Results.zero with
        qtype := BitVec.ofNat 5 qt, rate := BitVec.ofNat 2 rate, size := BitVec.ofNat 3 size, prec := BitVec.ofNat 3 prec,
        scale3 := BitVec.ofNat 3 scale3, scale := BitVec.ofNat 8 scale3, delta := BitVec.ofNat 16 delta,
        raw := BitVec.ofInt 64 raw, praw := BitVec.ofInt 64 praw,
        flatidx := BitVec.ofInt 16 (((qt : Int) - 1) * 16 + scale3), t0 := render raw prec, f0 := toFloat raw prec,
        t1 := if delta = 0 then [] else render praw prec, f1 := if delta = 0 then 0 else toFloat praw prec,
        exporting := decide (rate = s.params.rateExport.toNat), hasprev := decide (delta ≠ 0) } }

/-- R128, R129: a well-formed report of version 4 or 5, which differ in the length figure of a composed scale 7 only:
version 5 has a scale-2 byte of its own, version 4 takes the last byte of the last field. -/
def Obligations.ReportV4AndV5Complete : Prop :=
  ∀ (s : State) (qt rate size prec scale3 delta ext scale : Nat) (raw praw : Int),
    qt = (readByte s 1).toNat % 32 → rate = (readByte s 1).toNat / 32 % 4 →
    size = (readByte s 2).toNat % 8 → prec = (readByte s 2).toNat / 32 →
    scale3 = (readByte s 1).toNat / 128 * 4 + (readByte s 2).toNat / 8 % 4 →
    delta = (readByte s (3 + size)).toNat * 256 + (readByte s (4 + size)).toNat →
    1 ≤ qt → qt ≤ 5 → size = 1 ∨ size = 2 ∨ size = 4 →
    signedField s.params (readBytes s 3 size) = .ok raw →
    (if delta = 0 then praw = 0 else signedField s.params (readBytes s (5 + size) size) = .ok praw) →
    (if scale3 = 7 then ext = (readByte s (s.len.toNat - 2)).toNat ∧ ext < 248 ∧ scale = ext + 8
      else ext = 0 ∧ scale = scale3) →
    regHas s.params (((qt : Int) - 1) * 16 + scale) = true →
    ∀ i : Instr,
      (i = .reportV4 ∧ s.len.toNat = 6 + size + (if delta = 0 then 0 else size)) ∨
      (i = .reportV5 ∧ s.len.toNat = 6 + size + (if delta = 0 then 0 else size) + (if scale3 = 7 then 1 else 0)) →
    ∃ pos, exec i s = .next { s with
      phase := .done, reason := 0, pos := pos,
      res := { Results.zero with
        qtype := BitVec.ofNat 5 qt, rate := BitVec.ofNat 2 rate, size := BitVec.ofNat 3 size, prec := BitVec.ofNat 3 prec,
        scale3 := BitVec.ofNat 3 scale3, scale := BitVec.ofNat 8 scale, ext := BitVec.ofNat 8 ext,
        delta := BitVec.ofNat 16 delta, raw := BitVec.ofInt 64 raw, praw := BitVec.ofInt 64 praw,
        flatidx := BitVec.ofInt 16 (((qt : Int) - 1) * 16 + scale), t0 := render raw prec, f0 := toFloat raw prec,
        t1 := if delta = 0 then [] else render praw prec, f1 := if delta = 0 then 0 else toFloat praw prec,
        exporting := decide (rate = s.params.rateExport.toNat), hasprev := decide (delta ≠ 0) } }

/-- The cursor after a completed report (notes/assumptions/5.md: the model keeps the end of the last field read through
it, R21): 3, plus the value, delta-time from class 2 and the previous value where there is one. -/
def Obligations.ReportCursorEnds : Prop :=
  ∀ (c : VClass) (s t : State), exec (decodeReport c) s = .next t → t.phase = .done →
    t.pos.toNat = 3 + t.res.size.toNat + (if 2 ≤ c.num then 2 else 0) + (if t.res.delta = 0 then 0 else t.res.size.toNat) ∧
    t.pos.toNat ≤ addressable s

/-- R166 (1), (2), (4), R112, R113: the header faults of a report, in their order, in every class. -/
def Obligations.ReportHeaderFaults : Prop :=
  ∀ (c : VClass) (s : State) (qt size : Nat), qt = (readByte s 1).toNat % 32 → size = (readByte s 2).toNat % 8 →
    (addressable s < 3 →
      exec (decodeReport c) s = .next { s with phase := .rejected, reason := 0x02, res := Results.zero }) ∧
    (3 ≤ addressable s → ¬ (1 ≤ qt ∧ qt ≤ (if c.num ≤ 3 then 3 else 5)) →
      exec (decodeReport c) s = .next { s with phase := .rejected, reason := 0x11, res := Results.zero }) ∧
    (3 ≤ addressable s → 1 ≤ qt → qt ≤ (if c.num ≤ 3 then 3 else 5) → size ∉ [1, 2, 4] →
      exec (decodeReport c) s = .next { s with phase := .rejected, reason := 0x31, res := Results.zero })

/-- R120, R49, R74: with a legal header, a report whose length figure is not the expected one is rejected with
`LengthMismatch`, whether a guard or the exact comparison finds it. The fields that are read have a value: with
`SIZE4_MSB = Refuse` a field may have no outcome first. -/
def Obligations.ReportWrongLengthRejects : Prop :=
  ∀ (c : VClass) (s : State) (qt size delta scale3 : Nat),
    qt = (readByte s 1).toNat % 32 → size = (readByte s 2).toNat % 8 →
    delta = (if c.num = 1 then 0 else (readByte s (3 + size)).toNat * 256 + (readByte s (4 + size)).toNat) →
    scale3 = (if 3 ≤ c.num then (readByte s 1).toNat / 128 * 4 else 0) + (readByte s 2).toNat / 8 % 4 →
    3 ≤ addressable s → 1 ≤ qt → qt ≤ (if c.num ≤ 3 then 3 else 5) → size = 1 ∨ size = 2 ∨ size = 4 →
    (3 + size ≤ addressable s → ∃ raw, signedField s.params (readBytes s 3 size) = .ok raw) →
    (delta ≠ 0 → 5 + 2 * size ≤ addressable s → ∃ praw, signedField s.params (readBytes s (5 + size) size) = .ok praw) →
    s.len.toNat ≠ 4 + size + (if 2 ≤ c.num then 2 + (if delta = 0 then 0 else size) else 0)
      + (if c.num = 5 ∧ scale3 = 7 then 1 else 0) →
    exec (decodeReport c) s = .next { s with phase := .rejected, reason := 0x02, res := Results.zero }

/-- R120, R74: a completed report had exactly the length figure its own registers give. -/
def Obligations.ReportDoneHasExpectedLength : Prop :=
  ∀ (c : VClass) (s t : State), exec (decodeReport c) s = .next t → t.phase = .done →
    s.len.toNat = 4 + t.res.size.toNat
      + (if 2 ≤ c.num then 2 + (if t.res.delta = 0 then 0 else t.res.size.toNat) else 0)
      + (if c.num = 5 ∧ t.res.scale3 = 7 then 1 else 0)

/-- R123: the FlatIndex of a completed report is in the registry, and is the type and scale it reports. -/
def Obligations.ReportDoneIsResolved : Prop :=
  ∀ (c : VClass) (s t : State), exec (decodeReport c) s = .next t → t.phase = .done →
    t.res.flatidx.toInt = ((t.res.qtype.toNat : Int) - 1) * 16 + t.res.scale.toNat ∧
    regHas s.params t.res.flatidx.toInt = true ∧ 0 ≤ t.res.flatidx.toInt

/-- R115, R121, R23: the flags of a completed report. -/
def Obligations.ReportDoneFlags : Prop :=
  ∀ (c : VClass) (s t : State), exec (decodeReport c) s = .next t → t.phase = .done →
    (t.res.exporting = true ↔ 2 ≤ c.num ∧ t.res.rate = s.params.rateExport) ∧
    (t.res.hasprev = true ↔ t.res.delta ≠ 0) ∧ (c = .v1 → t.res.rate = 0 ∧ t.res.delta = 0) ∧
    (t.res.hasprev = false → t.res.praw = 0 ∧ t.res.t1 = [] ∧ t.res.f1 = 0)

/-- R123, R119, R101: where a report of class 4 or 5 passes the length check and still does not complete: a scale-2 byte
from 248 up has no outcome, an index outside the registry is rejected with `UnresolvedIndex`. -/
def Obligations.ReportScaleTwoOutcomes : Prop :=
  ∀ (s : State) (qt size delta scale3 ext : Nat) (raw praw : Int) (i : Instr),
    qt = (readByte s 1).toNat % 32 → size = (readByte s 2).toNat % 8 →
    scale3 = (readByte s 1).toNat / 128 * 4 + (readByte s 2).toNat / 8 % 4 →
    delta = (readByte s (3 + size)).toNat * 256 + (readByte s (4 + size)).toNat →
    ext = (readByte s (s.len.toNat - 2)).toNat →
    1 ≤ qt → qt ≤ 5 → size = 1 ∨ size = 2 ∨ size = 4 → scale3 = 7 →
    signedField s.params (readBytes s 3 size) = .ok raw →
    (if delta = 0 then praw = 0 else signedField s.params (readBytes s (5 + size) size) = .ok praw) →
    (i = .reportV4 ∧ s.len.toNat = 6 + size + (if delta = 0 then 0 else size)) ∨
      (i = .reportV5 ∧ s.len.toNat = 7 + size + (if delta = 0 then 0 else size)) →
    (248 ≤ ext → exec i s = .refused .scale2Overflow) ∧
    (ext < 248 → regHas s.params (((qt : Int) - 1) * 16 + (ext + 8)) = false →
      exec i s = .next { s with phase := .rejected, reason := 0x03, res := Results.zero })

/-- R101, R124: with `SIZE4_MSB = Refuse`, a report with a legal header whose primary 4-byte field is there and has its top
bit set has no outcome, and neither has one from class 2 up whose previous-value field is there and has its top bit set
after a primary field that has it clear; the length is not compared first. -/
def Obligations.ReportRefusesTopBitField : Prop :=
  ∀ (c : VClass) (s : State) (qt : Nat), qt = (readByte s 1).toNat % 32 → (readByte s 2).toNat % 8 = 4 →
    1 ≤ qt → qt ≤ (if c.num ≤ 3 then 3 else 5) → s.params.size4Msb = .refuse →
    (7 ≤ addressable s → (readByte s 3).msb = true → exec (decodeReport c) s = .refused .size4Msb) ∧
    (13 ≤ addressable s → (readByte s 3).msb = false → 2 ≤ c.num →
      (readByte s 7).toNat * 256 + (readByte s 8).toNat ≠ 0 → (readByte s 9).msb = true →
      exec (decodeReport c) s = .refused .size4Msb)

/-- R131: the version-4 scale-2 alias. -/
def Obligations.VersionFourScaleTwoAlias : Prop :=
  ∀ s t : State, exec .reportV4 s = .next t → t.phase = .done → t.res.scale3 = 7 →
    (t.res.delta = 0 → t.res.ext = 0 ∧ t.res.scale = 8) ∧
    (t.res.delta ≠ 0 → t.res.ext = readByte s (4 + 2 * t.res.size.toNat) ∧
      t.res.scale.toNat = 8 + (readByte s (4 + 2 * t.res.size.toNat)).toNat)

/-- R127, R129: version 3 differs from version 2 only where header bit 7 is set, version 5 from version 4 only where the
composed scale is 7. -/
def Obligations.NeighbouringVersionsAgree : Prop :=
  (∀ s : State, (readByte s 1).msb = false → exec .reportV3 s = exec .reportV2 s) ∧
  (∀ s : State, (readByte s 1).toNat / 128 * 4 + (readByte s 2).toNat / 8 % 4 ≠ 7 → exec .reportV5 s = exec .reportV4 s)

/-- R85: version 1 ignores bits 7:5 of header byte 1, version 2 ignores bit 7. -/
def Obligations.IgnoredHeaderBits : Prop :=
  (∀ (s : State) (b : Byte), b.toNat % 32 = (readByte s 1).toNat % 32 →
    outcomeView (exec .reportV1 { s with pb := memSet s.pb 1 b }) = outcomeView (exec .reportV1 s)) ∧
  (∀ (s : State) (b : Byte), b.toNat % 128 = (readByte s 1).toNat % 128 →
    outcomeView (exec .reportV2 { s with pb := memSet s.pb 1 b }) = outcomeView (exec .reportV2 s))

/-! ## SUPPORTED -/

/-- R147: version 1 always rejects, whatever the payload. -/
def Obligations.SupportedV1AlwaysRejects : Prop :=
  ∀ s : State, exec .supportedV1 s = .next { s with phase := .rejected, reason := 0x05, res := Results.zero }

/-- R144, R145, R146, R149: a capability payload without an extension. Scales up to 7 resolve for the types 1 to 5 and are
all warned for type 0. -/
def Obligations.SupportedWithoutExtensionCompletes : Prop :=
  ∀ (s : State) (qt mask : Nat) (i : Instr), s.params.wf → 3 ≤ addressable s →
    qt = (readByte s 1).toNat % 32 → qt ≤ 5 →
    (i = .supportedV2 ∧ mask = (readByte s 2).toNat % 16) ∨ (i = .supportedV3 ∧ mask = (readByte s 2).toNat) ∨
      (i = .supportedV4 ∧ mask = (readByte s 2).toNat ∧ mask < 128) →
    exec i s = .next { s with
      phase := .done, reason := 0,
      res := { Results.zero with
        qtype := BitVec.ofNat 5 qt, flatidx := BitVec.ofInt 16 (((qt : Int) - 1) * 16), supmask := mask,
        resmask := if qt = 0 then 0 else mask, warnmask := if qt = 0 then mask else 0,
        canreset := (readByte s 1).msb, warn := decide (qt = 0 ∧ mask ≠ 0) } }

/-- R141, R146, R142: a capability payload of class 4 or 5 with a counted extension that fits completes with the bitmap of
byte 2 and the extension bytes, split by the registry. -/
def Obligations.SupportedWithExtensionCompletes : Prop :=
  ∀ (s : State) (qt n : Nat), s.params.wf → qt = (readByte s 1).toNat % 32 → qt ≤ 5 → (readByte s 2).msb = true →
    n = (readByte s 3).toNat → n ≤ (s.params.bitmapBits - supExtBit s.params) / 8 → 4 + n ≤ addressable s →
    ∃ sup res warn : Nat, exec .supportedV4 s = .next { s with
        phase := .done, reason := 0,
        res := { Results.zero with
          qtype := BitVec.ofNat 5 qt, flatidx := BitVec.ofInt 16 (((qt : Int) - 1) * 16), supmask := sup, resmask := res,
          warnmask := warn, canreset := (readByte s 1).msb, warn := decide (warn ≠ 0) } } ∧
      (∀ i, sup.testBit i = true ↔ (i < 7 ∧ (readByte s 2).getLsbD i = true) ∨
        ∃ j k, j < n ∧ k < 8 ∧ i = supExtBit s.params + 8 * j + k ∧ (readByte s (4 + j)).getLsbD k = true) ∧
      (∀ i, res.testBit i = (sup.testBit i && regHas s.params (((qt : Int) - 1) * 16 + i))) ∧
      (∀ i, warn.testBit i = (sup.testBit i && !regHas s.params (((qt : Int) - 1) * 16 + i)))

/-- R166, R139, R141, R49: the rejections of `SUPPORTED` in their order, and the count that has no outcome. -/
def Obligations.SupportedFaults : Prop :=
  ∀ (c : VClass) (s : State), c ≠ .v1 →
    (addressable s < 3 →
      exec (decodeSupported c) s = .next { s with phase := .rejected, reason := 0x02, res := Results.zero }) ∧
    (3 ≤ addressable s → 5 < (readByte s 1).toNat % 32 →
      exec (decodeSupported c) s = .next { s with phase := .rejected, reason := 0x11, res := Results.zero }) ∧
    (4 ≤ c.num → (readByte s 1).toNat % 32 ≤ 5 → (readByte s 2).msb = true →
      (addressable s = 3 →
        exec (decodeSupported c) s = .next { s with phase := .rejected, reason := 0x02, res := Results.zero }) ∧
      (4 ≤ addressable s → maxExt s.params < (readByte s 3).toNat →
        exec (decodeSupported c) s = .refused .bitmapOverflow) ∧
      (4 ≤ addressable s → (readByte s 3).toNat ≤ maxExt s.params → addressable s < 4 + (readByte s 3).toNat →
        exec (decodeSupported c) s = .next { s with phase := .rejected, reason := 0x02, res := Results.zero }))

/-- R142, R173: whatever a completed `SUPPORTED` advertises is resolved or warned, never both, by the registry's answer;
`WARN` is up exactly when something was warned. -/
def Obligations.SupportedSplitsByRegistry : Prop :=
  ∀ (c : VClass) (s t : State), s.params.wf → exec (decodeSupported c) s = .next t → t.phase = .done →
    t.res.resmask ||| t.res.warnmask = t.res.supmask ∧ t.res.resmask &&& t.res.warnmask = 0 ∧
    t.res.supmask < 2 ^ s.params.bitmapBits ∧
    t.res.flatidx.toInt = ((t.res.qtype.toNat : Int) - 1) * 16 ∧
    (∀ i, t.res.resmask.testBit i = (t.res.supmask.testBit i && regHas s.params (t.res.flatidx.toInt + i))) ∧
    (∀ i, t.res.warnmask.testBit i = (t.res.supmask.testBit i && !regHas s.params (t.res.flatidx.toInt + i))) ∧
    t.res.warn = decide (t.res.warnmask ≠ 0)

/-! ## PACKSCALE -/

/-- R151: version 1 packs no byte. -/
def Obligations.PackScaleV1Completes : Prop :=
  ∀ (s : State) (sc : Nat), exec (.packScaleV1 sc) s = .next { s with phase := .done, reason := 0, res := Results.zero }

/-- R152, R153: versions 2 and 3 pack the low two or three bits of the scale, shifted left by 3, in one byte. -/
def Obligations.PackScaleV2AndV3Complete : Prop :=
  ∀ (s : State) (sc : Nat),
    exec (.packScaleV2 sc) s = .next { s with
      phase := .done, reason := 0, res := { Results.zero with packn := 1, packb := (BitVec.ofNat 16 sc &&& 0x03) <<< 3 } } ∧
    exec (.packScaleV3 sc) s = .next { s with
      phase := .done, reason := 0, res := { Results.zero with packn := 1, packb := (BitVec.ofNat 16 sc &&& 0x07) <<< 3 } }

/-- R154: version 4 and above pack one byte up to scale 7, the marker and `scale - 8` up to 263, and have no outcome
beyond; the marker is `0x38` by default. -/
def Obligations.PackScaleV4Completes : Prop :=
  ∀ (s : State) (sc : Nat),
    (sc ≤ 7 → exec (.packScaleV4 sc) s = .next { s with
      phase := .done, reason := 0, res := { Results.zero with packn := 1, packb := BitVec.ofNat 16 (sc * 8) } }) ∧
    (8 ≤ sc → sc ≤ 263 → exec (.packScaleV4 sc) s = .next { s with
      phase := .done, reason := 0,
      res := { Results.zero with packn := 2, packb := BitVec.ofNat 8 (sc - 8) ++ s.params.packMarker } }) ∧
    (263 < sc → exec (.packScaleV4 sc) s = .refused .packScaleRange) ∧
    Params.default.packMarker = 0x38

/-- R156: a report of class 5 whose scale-2 byte is the second packed byte of a scale from 8 to 255 reports that scale;
a report of class 3 or above that carries bits 5:3 of the packed byte of a scale below 7 (7 too in class 3) reports it. -/
def Obligations.PackedScaleReadsBack : Prop :=
  (∀ (s t u v : State) (sc : Nat), 8 ≤ sc → sc ≤ 255 → exec (.packScaleV4 sc) s = .next t →
    exec .reportV5 u = .next v → v.phase = .done → v.res.scale3 = 7 →
    readByte u (u.len.toNat - 2) = t.res.packb.extractLsb' 8 8 → v.res.scale.toNat = sc) ∧
  (∀ (c : VClass) (s t u v : State) (sc : Nat), 3 ≤ c.num → sc < 7 ∨ (sc = 7 ∧ c = .v3) →
    exec (decodePackScale sc c) s = .next t → exec (decodeReport c) u = .next v → v.phase = .done →
    (readByte u 1).toNat / 128 * 4 + (readByte u 2).toNat / 8 % 4 = (t.res.packb.extractLsb' 3 3).toNat →
    v.res.scale.toNat = sc)
end

