-- ==== Sys2Proof/Laws/State.lean ====
section
/-! SUPPORT. The fields of State after each named update, one lemma per field, so that no proof unfolds an update. -/

namespace Sys2Proof.Machine

@[simp] theorem commitDone_op (s : State) (c : Completion) : (commitDone s c).op = s.op := rfl
@[simp] theorem commitDone_version (s : State) (c : Completion) : (commitDone s c).version = s.version := rfl
@[simp] theorem commitDone_len (s : State) (c : Completion) : (commitDone s c).len = s.len := rfl
@[simp] theorem commitDone_arg (s : State) (c : Completion) : (commitDone s c).arg = s.arg := rfl
@[simp] theorem commitDone_phase (s : State) (c : Completion) : (commitDone s c).phase = .done := rfl
@[simp] theorem commitDone_reason (s : State) (c : Completion) : (commitDone s c).reason = 0 := rfl
@[simp] theorem commitDone_pos (s : State) (c : Completion) : (commitDone s c).pos = c.pos := rfl
@[simp] theorem commitDone_res (s : State) (c : Completion) : (commitDone s c).res = c.res := rfl
@[simp] theorem commitDone_pb (s : State) (c : Completion) : (commitDone s c).pb = s.pb := rfl
@[simp] theorem commitDone_params (s : State) (c : Completion) : (commitDone s c).params = s.params := rfl
@[simp] theorem commitDone_resets (s : State) (c : Completion) : (commitDone s c).resets = s.resets := rfl
@[simp] theorem commitDone_hostQueue (s : State) (c : Completion) : (commitDone s c).hostQueue = s.hostQueue := rfl

@[simp] theorem enterRejected_op (s : State) (k : ErrorKind) : (enterRejected s k).op = s.op := rfl
@[simp] theorem enterRejected_version (s : State) (k : ErrorKind) : (enterRejected s k).version = s.version := rfl
@[simp] theorem enterRejected_len (s : State) (k : ErrorKind) : (enterRejected s k).len = s.len := rfl
@[simp] theorem enterRejected_arg (s : State) (k : ErrorKind) : (enterRejected s k).arg = s.arg := rfl
@[simp] theorem enterRejected_phase (s : State) (k : ErrorKind) : (enterRejected s k).phase = .rejected := rfl
@[simp] theorem enterRejected_reason (s : State) (k : ErrorKind) : (enterRejected s k).reason = reasonOf k := rfl
@[simp] theorem enterRejected_pos (s : State) (k : ErrorKind) : (enterRejected s k).pos = s.pos := rfl
@[simp] theorem enterRejected_res (s : State) (k : ErrorKind) : (enterRejected s k).res = Results.zero := rfl
@[simp] theorem enterRejected_pb (s : State) (k : ErrorKind) : (enterRejected s k).pb = s.pb := rfl
@[simp] theorem enterRejected_params (s : State) (k : ErrorKind) : (enterRejected s k).params = s.params := rfl
@[simp] theorem enterRejected_resets (s : State) (k : ErrorKind) : (enterRejected s k).resets = s.resets := rfl
@[simp] theorem enterRejected_hostQueue (s : State) (k : ErrorKind) : (enterRejected s k).hostQueue = s.hostQueue := rfl

@[simp] theorem clearBlock_op (s : State) : (clearBlock s).op = s.op := rfl
@[simp] theorem clearBlock_version (s : State) : (clearBlock s).version = s.version := rfl
@[simp] theorem clearBlock_len (s : State) : (clearBlock s).len = s.len := rfl
@[simp] theorem clearBlock_arg (s : State) : (clearBlock s).arg = s.arg := rfl
@[simp] theorem clearBlock_phase (s : State) : (clearBlock s).phase = .idle := rfl
@[simp] theorem clearBlock_reason (s : State) : (clearBlock s).reason = 0 := rfl
@[simp] theorem clearBlock_pos (s : State) : (clearBlock s).pos = 0 := rfl
@[simp] theorem clearBlock_res (s : State) : (clearBlock s).res = Results.zero := rfl
@[simp] theorem clearBlock_pb (s : State) : (clearBlock s).pb = s.pb := rfl
@[simp] theorem clearBlock_params (s : State) : (clearBlock s).params = s.params := rfl
@[simp] theorem clearBlock_resets (s : State) : (clearBlock s).resets = s.resets := rfl
@[simp] theorem clearBlock_hostQueue (s : State) : (clearBlock s).hostQueue = s.hostQueue := rfl

@[simp] theorem resetBlock_op (s : State) : (resetBlock s).op = 0 := rfl
@[simp] theorem resetBlock_version (s : State) : (resetBlock s).version = 0 := rfl
@[simp] theorem resetBlock_len (s : State) : (resetBlock s).len = 0 := rfl
@[simp] theorem resetBlock_arg (s : State) : (resetBlock s).arg = 0 := rfl
@[simp] theorem resetBlock_phase (s : State) : (resetBlock s).phase = .idle := rfl
@[simp] theorem resetBlock_reason (s : State) : (resetBlock s).reason = 0 := rfl
@[simp] theorem resetBlock_pos (s : State) : (resetBlock s).pos = 0 := rfl
@[simp] theorem resetBlock_res (s : State) : (resetBlock s).res = Results.zero := rfl
@[simp] theorem resetBlock_pb (s : State) : (resetBlock s).pb = [] := rfl
@[simp] theorem resetBlock_params (s : State) : (resetBlock s).params = s.params := rfl
@[simp] theorem resetBlock_resets (s : State) : (resetBlock s).resets = s.resets + 1 := rfl
@[simp] theorem resetBlock_hostQueue (s : State) : (resetBlock s).hostQueue = s.hostQueue := rfl

/-! The outputs after reset, `CLEAR` and `START`, field by field. -/

@[simp] theorem zero_qtype : Results.zero.qtype = 0 := rfl
@[simp] theorem zero_rate : Results.zero.rate = 0 := rfl
@[simp] theorem zero_size : Results.zero.size = 0 := rfl
@[simp] theorem zero_prec : Results.zero.prec = 0 := rfl
@[simp] theorem zero_scale3 : Results.zero.scale3 = 0 := rfl
@[simp] theorem zero_scale : Results.zero.scale = 0 := rfl
@[simp] theorem zero_ext : Results.zero.ext = 0 := rfl
@[simp] theorem zero_delta : Results.zero.delta = 0 := rfl
@[simp] theorem zero_raw : Results.zero.raw = 0 := rfl
@[simp] theorem zero_praw : Results.zero.praw = 0 := rfl
@[simp] theorem zero_flatidx : Results.zero.flatidx = 0 := rfl
@[simp] theorem zero_supmask : Results.zero.supmask = 0 := rfl
@[simp] theorem zero_resmask : Results.zero.resmask = 0 := rfl
@[simp] theorem zero_warnmask : Results.zero.warnmask = 0 := rfl
@[simp] theorem zero_packn : Results.zero.packn = 0 := rfl
@[simp] theorem zero_packb : Results.zero.packb = 0 := rfl
@[simp] theorem zero_t0 : Results.zero.t0 = [] := rfl
@[simp] theorem zero_t1 : Results.zero.t1 = [] := rfl
@[simp] theorem zero_f0 : Results.zero.f0 = 0 := rfl
@[simp] theorem zero_f1 : Results.zero.f1 = 0 := rfl
@[simp] theorem zero_exporting : Results.zero.exporting = false := rfl
@[simp] theorem zero_hasprev : Results.zero.hasprev = false := rfl
@[simp] theorem zero_canreset : Results.zero.canreset = false := rfl
@[simp] theorem zero_warn : Results.zero.warn = false := rfl

end Sys2Proof.Machine
end

