-- ==== Sys2Proof/Laws/Memory.lean ====
section
/-! SUPPORT. The payload buffer: a read after a write, and the canonical form every memory operation keeps. -/

namespace Sys2Proof.Machine

/-- Reading the index just written gives the byte written. -/
@[simp] theorem memGet?_memSet_same (m : Memory) (k : Nat) (b : Byte) : memGet? (memSet m k b) k = some b := by
  induction m with
  | nil => simp [memSet, memGet?]
  | cons x m ih =>
    obtain ⟨a, c⟩ := x
    simp only [memSet]
    split
    · simp [memGet?]
    · split
      · simp [memGet?]
      · rename_i h1 h2
        have : a ≠ k := fun h => h2 h.symm
        simp [memGet?, this, ih]

/-- A write leaves every other index as it was. -/
theorem memGet?_memSet_other (m : Memory) {j k : Nat} (b : Byte) (h : j ≠ k) :
    memGet? (memSet m k b) j = memGet? m j := by
  have hkj : k ≠ j := fun e => h e.symm
  induction m with
  | nil => simp [memSet, memGet?, hkj]
  | cons x m ih =>
    obtain ⟨a, c⟩ := x
    simp only [memSet]
    split
    · simp [memGet?, hkj]
    · split
      · rename_i h2
        subst h2
        simp [memGet?, hkj]
      · simp [memGet?, ih]

/-- The indices of a written buffer: the old ones and the one written. -/
theorem mem_memSet {m : Memory} {k : Nat} {b : Byte} {x : Host.Cell} (hx : x ∈ memSet m k b) :
    x = (k, b) ∨ x ∈ m := by
  induction m with
  | nil => simpa [memSet] using hx
  | cons y m ih =>
    obtain ⟨a, c⟩ := y
    simp only [memSet] at hx
    split at hx
    · simpa using hx
    · split at hx
      · simp only [List.mem_cons] at hx ⊢
        tauto
      · simp only [List.mem_cons] at hx ⊢
        rcases hx with hx | hx
        · exact .inr (.inl hx)
        · rcases ih hx with h | h
          · exact .inl h
          · exact .inr (.inr h)

/-- A write below the capacity keeps the canonical form. -/
theorem memSet_wf {m : Memory} {k : Nat} (b : Byte) (hk : k < pbBytes) (h : Memory.wf m) : Memory.wf (memSet m k b) := by
  refine ⟨?_, fun x hx => ?_⟩
  · have hs := h.1
    clear h hk
    induction m with
    | nil => simp [memSet]
    | cons y m ih =>
      obtain ⟨a, c⟩ := y
      rw [List.pairwise_cons] at hs
      simp only [memSet]
      split
      · rename_i hlt
        rw [List.pairwise_cons]
        refine ⟨fun z hz => ?_, List.pairwise_cons.2 hs⟩
        rcases List.mem_cons.1 hz with rfl | hz
        · exact hlt
        · exact Nat.lt_trans hlt (hs.1 z hz)
      · split
        · rename_i he
          subst he
          exact List.pairwise_cons.2 hs
        · rename_i h1 h2
          rw [List.pairwise_cons]
          refine ⟨fun z hz => ?_, ih hs.2⟩
          rcases mem_memSet hz with rfl | hz
          · exact Nat.lt_of_le_of_ne (Nat.le_of_not_lt h1) (fun e => h2 e.symm)
          · exact hs.1 z hz
  · rcases mem_memSet hx with rfl | hx
    · exact hk
    · exact h.2 x hx

/-- The buffer right after reset is canonical. -/
theorem reset_pb_wf : Memory.wf State.reset.pb := by decide

/-- What a host write to the payload buffer can do. -/
theorem hostWriteByte_next {s t : State} {k : Nat} {b : Byte} (h : hostWriteByte s k b = .next t) :
    k < pbBytes ∧ t = { s with pb := memSet s.pb k b } := by
  unfold hostWriteByte at h
  split at h
  · rename_i hk
    exact ⟨hk, by cases h; rfl⟩
  · cases h

/-- A read of a list of bytes has the length asked for. -/
@[simp] theorem readBytes_length (s : State) (k n : Nat) : (readBytes s k n).length = n := by
  induction n generalizing k with
  | zero => rfl
  | succ n ih => simp [readBytes, ih]

/-- Two states whose bytes agree on a range read the same list there. -/
theorem readBytes_congr {s t : State} {k n : Nat} (h : ∀ i, k ≤ i → i < k + n → readByte s i = readByte t i) :
    readBytes s k n = readBytes t k n := by
  induction n generalizing k with
  | zero => rfl
  | succ n ih =>
    simp only [readBytes]
    rw [h k (Nat.le_refl k) (by omega), ih fun i h1 h2 => h i (by omega) (by omega)]

end Sys2Proof.Machine
end

