-- ==== Sys2Proof/Laws/Ops.lean ====
section
/-! SUPPORT. What each shared operation can do, said once: the evaluation of rules, the end of an operation, the registry
port, the length of a payload, the signed field. -/

namespace Sys2Proof.Machine

/-! ## Evaluation -/

@[simp] theorem bind_ok {α β : Type} (a : α) (f : α → Eval β) : (Eval.ok a).bind f = f a := rfl

@[simp] theorem bind_reject {α β : Type} (k : ErrorKind) (f : α → Eval β) : (Eval.reject k).bind f = .reject k := rfl

@[simp] theorem bind_unspecified {α β : Type} (r : Refusal) (f : α → Eval β) :
    (Eval.unspecified r).bind f = .unspecified r := rfl

/-- A sequence that gives a result: both parts did. -/
theorem bind_eq_ok {α β : Type} {e : Eval α} {f : α → Eval β} {b : β} (h : e.bind f = .ok b) :
    ∃ a, e = .ok a ∧ f a = .ok b := by
  cases e with
  | ok a => exact ⟨a, rfl, h⟩
  | reject k => cases h
  | unspecified r => cases h

/-- A sequence that rejects: its first part did, or its second part after it. -/
theorem bind_eq_reject {α β : Type} {e : Eval α} {f : α → Eval β} {k : ErrorKind} (h : e.bind f = .reject k) :
    e = .reject k ∨ ∃ a, e = .ok a ∧ f a = .reject k := by
  cases e with
  | ok a => exact .inr ⟨a, rfl, h⟩
  | reject k' => cases h; exact .inl rfl
  | unspecified r => cases h

/-! ## The end of an operation -/

@[simp] theorem finish_ok (s : State) (c : Completion) : finishOperation s (.ok c) = .next (commitDone s c) := rfl

@[simp] theorem finish_reject (s : State) (k : ErrorKind) :
    finishOperation s (.reject k) = .next (enterRejected s k) := rfl

@[simp] theorem finish_unspecified (s : State) (r : Refusal) : finishOperation s (.unspecified r) = .refused r := rfl

/-- Everything an operation can end in with a next state: it is done or it is rejected (R11). -/
theorem finish_next {s t : State} {e : Eval Completion} (h : finishOperation s e = .next t) :
    (∃ c, e = .ok c ∧ t = commitDone s c) ∨ (∃ k, e = .reject k ∧ t = enterRejected s k) := by
  cases e with
  | ok c => exact .inl ⟨c, rfl, by cases h; rfl⟩
  | reject k => exact .inr ⟨k, rfl, by cases h; rfl⟩
  | unspecified r => cases h

/-! ## Parameters -/

/-- The registry holds every index from 0 to 79 (R54 (a)). -/
theorem regHas_low (p : Params) {f : Int} (h0 : 0 ≤ f) (h : f < 80) : regHas p f = true := by
  simp [regHas, h, Int.not_lt.2 h0]

/-- The registry holds no negative index (R54 (b)). -/
theorem regHas_negative (p : Params) {f : Int} (h : f < 0) : regHas p f = false := by simp [regHas, h]

/-- The registry holds no index from `REG_MAX` up (R54 (b)). -/
theorem regHas_high {p : Params} (hp : p.wf) {f : Int} (h : (p.regMax : Int) ≤ f) : regHas p f = false := by
  obtain ⟨-, h80, -, -⟩ := hp
  have h1 : ¬ f < 0 := by omega
  have h2 : ¬ f < 80 := by omega
  have h3 : ¬ f < (p.regMax : Int) := by omega
  simp [regHas, h1, h2, h3]

/-- `SUP_EXT_BASE` is 7 or 8. -/
theorem supExtBit_cases (p : Params) : supExtBit p = 7 ∨ supExtBit p = 8 := by
  unfold supExtBit
  cases p.supExtBase <;> simp

/-- Every extension byte within `MAX_EXT` fits the bitmap (R106 (g)). -/
theorem maxExt_fits (p : Params) {j : Nat} (h : j < maxExt p) : supExtBit p + 8 * j + 8 ≤ p.bitmapBits := by
  unfold maxExt at h
  omega

/-! ## Payload length -/

/-- `N` is at most 254 (R21). -/
theorem addressable_le (s : State) : addressable s ≤ 254 := by
  have := s.len.isLt
  unfold addressable
  split <;> omega

/-- With an addressable byte, `LEN` is `N + 1` (R47). -/
theorem len_eq_addressable {s : State} (h : 0 < addressable s) : s.len.toNat = addressable s + 1 := by
  unfold addressable at h ⊢
  split at h
  · omega
  · rename_i h0
    rw [if_neg h0]
    omega

/-- A positive `LEN` is `N + 1` (R47). -/
theorem addressable_of_len {s : State} {n : Nat} (h : s.len.toNat = n + 1) : addressable s = n := by
  unfold addressable
  rw [if_neg (by omega), h]
  omega

/-! ## Numeric fields -/

/-- The value of a field of `n` bytes is below `256^n`. -/
theorem beValue_lt (bs : List Byte) : beValue bs < 256 ^ bs.length := by
  have key : ∀ (bs : List Byte) (a : Nat), bs.foldl (fun a b => a * 256 + b.toNat) a < (a + 1) * 256 ^ bs.length := by
    intro bs
    induction bs with
    | nil => intro a; simp
    | cons b bs ih =>
      intro a
      have hb : b.toNat < 256 := b.isLt
      calc List.foldl (fun a b => a * 256 + b.toNat) (a * 256 + b.toNat) bs
          < (a * 256 + b.toNat + 1) * 256 ^ bs.length := ih _
        _ ≤ (a * 256 + 256) * 256 ^ bs.length := Nat.mul_le_mul_right _ (by omega)
        _ = (a + 1) * 256 ^ (b :: bs).length := by rw [List.length_cons, pow_succ]; ring
  have h := key bs 0
  rw [Nat.zero_add, Nat.one_mul] at h
  exact h

/-- Everything the signed field can answer: two's complement for 1 and 2 bytes, `SIZE4_MSB` for 4 (R98, R101). -/
theorem signedField_ok {p : Params} {bs : List Byte} {v : Int} (h : signedField p bs = .ok v) :
    (topBit bs = false ∧ v = beValue bs) ∨
    (topBit bs = true ∧ bs.length ≠ 4 ∧ v = (beValue bs : Int) - 2 ^ (8 * bs.length)) ∨
    (topBit bs = true ∧ bs.length = 4 ∧ p.size4Msb = .negative ∧ v = (beValue bs : Int) - 4294967296) ∨
    (topBit bs = true ∧ bs.length = 4 ∧ p.size4Msb = .positive ∧ v = beValue bs) := by
  unfold signedField at h
  split at h
  · rename_i ht
    split at h
    · rename_i hl
      split at h
      · rename_i hm; cases h; exact .inr (.inr (.inl ⟨ht, hl, hm, rfl⟩))
      · rename_i hm; cases h; exact .inr (.inr (.inr ⟨ht, hl, hm, rfl⟩))
      · cases h
    · rename_i hl; cases h; exact .inr (.inl ⟨ht, hl, rfl⟩)
  · rename_i ht; cases h; exact .inl ⟨by simpa using ht, rfl⟩

/-- The signed field never rejects. -/
theorem signedField_not_reject (p : Params) (bs : List Byte) (k : ErrorKind) : signedField p bs ≠ .reject k := by
  unfold signedField
  split
  · split
    · split <;> simp
    · simp
  · simp

/-- The signed field has a value unless `SIZE4_MSB` is `Refuse`. -/
theorem signedField_total {p : Params} (hp : p.size4Msb ≠ .refuse) (bs : List Byte) : ∃ v, signedField p bs = .ok v := by
  unfold signedField
  split
  · split
    · split
      · exact ⟨_, rfl⟩
      · exact ⟨_, rfl⟩
      · rename_i h; exact absurd h hp
    · exact ⟨_, rfl⟩
  · exact ⟨_, rfl⟩

/-- The signed field depends on the parameters and the bytes alone (R107, R33). -/
theorem signedField_congr {s t : State} {k n : Nat} (hp : s.params = t.params)
    (h : ∀ i, k ≤ i → i < k + n → readByte s i = readByte t i) :
    signedField s.params (readBytes s k n) = signedField t.params (readBytes t k n) := by
  rw [hp, readBytes_congr h]

/-- The range of every value the signed field of 1, 2 or 4 bytes yields (R16). -/
theorem signedField_range {p : Params} {bs : List Byte} {v : Int} (hn : bs.length = 1 ∨ bs.length = 2 ∨ bs.length = 4)
    (h : signedField p bs = .ok v) : -2147483648 ≤ v ∧ v < 4294967296 := by
  have hlt := beValue_lt bs
  have top : topBit bs = true → bs.length = 4 → 2147483648 ≤ beValue bs := by
    intro ht hl
    match bs, hl with
    | [a, b, c, d], _ =>
      have ha : 128 ≤ a.toNat := Nat.ge_two_pow_of_testBit ht
      simp only [beValue, List.foldl_cons, List.foldl_nil]
      omega
  rcases signedField_ok h with ⟨-, rfl⟩ | ⟨-, hne, rfl⟩ | ⟨ht, hl, -, rfl⟩ | ⟨-, hl, -, rfl⟩
  · rcases hn with hn | hn | hn <;> rw [hn] at hlt <;> norm_num at hlt <;> omega
  · rcases hn with hn | hn | hn
    · rw [hn] at hlt ⊢; norm_num at hlt ⊢; omega
    · rw [hn] at hlt ⊢; norm_num at hlt ⊢; omega
    · exact absurd hn hne
  · have := top ht hl
    rw [hl] at hlt; norm_num at hlt; omega
  · rw [hl] at hlt; norm_num at hlt; omega

/-- A bit field is below the power of two of its width. -/
theorem bitsOf_lt (v hi lo : Nat) : bitsOf v hi lo < 2 ^ (hi + 1 - lo) := Nat.mod_lt _ (Nat.two_pow_pos _)

end Sys2Proof.Machine
end

