-- ==== Sys2Proof/Laws/Report.lean ====
section
/-! SUPPORT. What each phase of `REPORT` says when it gives a result, and the inversion of the whole operation. -/

namespace Sys2Proof.Machine

/-- A parsed header: at least three bytes, legal type and size, and the fields of bytes 1 and 2 (R124). -/
theorem parseHeader_ok {c : VClass} {s : State} {h : ReportHeader} (e : parseHeader c s = .ok h) :
    3 ≤ addressable s ∧ quantityTypeLegal c (qtypeField (readByte s 1)) ∧ elementSizeLegal (sizeField (readByte s 2)) ∧
    h = { qt := qtypeField (readByte s 1), rate := rateField c (readByte s 1),
          exporting := exportingFlag s.params c (rateField c (readByte s 1)), size := sizeField (readByte s 2),
          prec := precField (readByte s 2), scale3 := composedScale c (readByte s 1) (readByte s 2) } := by
  unfold parseHeader at e
  split at e
  · cases e
  · split at e
    · cases e
    · split at e
      · cases e
      · split at e
        · cases e
        · rename_i h1 h2 h3 h4
          exact ⟨Nat.le_of_not_lt h1, not_not.1 h2, not_not.1 h4, by cases e; rfl⟩

/-- The rate check never fires: a 2-bit field is below 4 (R114). -/
theorem rateField_legal (c : VClass) (b1 : Byte) : rateLegal c (rateField c b1) := by
  intro _
  unfold rateField
  split
  · omega
  · exact bitsOf_lt _ _ _

/-- The delta-time part of `PARSE_NUMERIC` (R118). -/
theorem parseDelta_ok {c : VClass} {raw : Int} {pos : Nat} {s : State} {m : ReportNumeric}
    (e : parseDelta c raw pos s = .ok m) :
    m.raw = raw ∧
    ((c.num = 1 ∧ m.delta = 0 ∧ m.pos = pos) ∨
     (c.num ≠ 1 ∧ pos + 2 ≤ addressable s ∧ m.delta = beValue (readBytes s pos 2) ∧ m.pos = pos + 2)) := by
  unfold parseDelta at e
  split at e
  · rename_i h1
    cases e
    exact ⟨rfl, .inl ⟨h1, rfl, rfl⟩⟩
  · rename_i h1
    split at e
    · cases e
    · rename_i h2
      cases e
      exact ⟨rfl, .inr ⟨h1, Nat.le_of_not_lt h2, rfl, rfl⟩⟩

/-- `PARSE_NUMERIC` (R117, R118). -/
theorem parseNumeric_ok {c : VClass} {h : ReportHeader} {s : State} {m : ReportNumeric}
    (e : parseNumeric c h s = .ok m) :
    3 + h.size ≤ addressable s ∧ signedField s.params (readBytes s 3 h.size) = .ok m.raw ∧
    ((c.num = 1 ∧ m.delta = 0 ∧ m.pos = 3 + h.size) ∨
     (c.num ≠ 1 ∧ 5 + h.size ≤ addressable s ∧ m.delta = beValue (readBytes s (3 + h.size) 2) ∧
      m.pos = 5 + h.size)) := by
  unfold parseNumeric at e
  split at e
  · cases e
  · rename_i h1
    obtain ⟨raw, er, ed⟩ := bind_eq_ok e
    obtain ⟨rfl, hd⟩ := parseDelta_ok ed
    refine ⟨Nat.le_of_not_lt h1, er, ?_⟩
    rcases hd with ⟨a, b, d⟩ | ⟨a, b, d, g⟩
    · exact .inl ⟨a, b, d⟩
    · exact .inr ⟨a, by omega, d, by omega⟩

/-- `PARSE_PREVIOUS`, or its placeholders (R121). -/
theorem parsePrevious_ok {h : ReportHeader} {m : ReportNumeric} {s : State} {q : ReportPrevious}
    (e : parsePrevious h m s = .ok q) :
    (m.delta = 0 ∧ q = ⟨0, false, m.pos⟩) ∨
    (m.delta ≠ 0 ∧ m.pos + h.size ≤ addressable s ∧ signedField s.params (readBytes s m.pos h.size) = .ok q.praw ∧
     q.hasprev = true ∧ q.pos = m.pos + h.size) := by
  unfold parsePrevious at e
  split at e
  · rename_i h0
    exact .inl ⟨h0, by cases e; rfl⟩
  · rename_i h0
    split at e
    · cases e
    · rename_i h1
      obtain ⟨praw, er, eq⟩ := bind_eq_ok e
      cases eq
      exact .inr ⟨h0, Nat.le_of_not_lt h1, er, rfl, rfl⟩

/-- The resolved scale (R119). -/
theorem resolveScale_ok {c : VClass} {scale3 : Nat} {s : State} {v : ReportScale} (e : resolveScale c scale3 s = .ok v) :
    (¬ (4 ≤ c.num ∧ scale3 = 7) ∧ v = ⟨0, scale3⟩) ∨
    (4 ≤ c.num ∧ scale3 = 7 ∧ v.ext < 248 ∧ v.ext = (readByte s (addressable s - 1)).toNat ∧ v.scale = v.ext + 8) := by
  unfold resolveScale at e
  split at e
  · rename_i h
    split at e
    · cases e
    · rename_i h2
      cases e
      exact .inr ⟨h.1, h.2, Nat.lt_of_not_le h2, rfl, rfl⟩
  · rename_i h
    exact .inl ⟨h, by cases e; rfl⟩

/-- `VALIDATE` (R120, R119, R123). -/
theorem validateReport_ok {c : VClass} {h : ReportHeader} {m : ReportNumeric} {s : State} {v : ReportScale}
    (e : validateReport c h m s = .ok v) :
    s.len.toNat = expectedLength c h.size m.delta h.scale3 ∧ resolveScale c h.scale3 s = .ok v ∧
    regHas s.params (flatIndex h.qt v.scale) = true := by
  unfold validateReport at e
  split at e
  · cases e
  · rename_i h1
    obtain ⟨v', ev, er⟩ := bind_eq_ok e
    split at er
    · rename_i hr
      cases er
      exact ⟨not_not.1 h1, ev, hr⟩
    · cases er

/-- A `REPORT` that completes went through its four phases (R124). -/
theorem evalReport_ok {c : VClass} {s : State} {r : Completion} (e : evalReport c s = .ok r) :
    ∃ h m q v, parseHeader c s = .ok h ∧ parseNumeric c h s = .ok m ∧ parsePrevious h m s = .ok q ∧
      validateReport c h m s = .ok v ∧ r = ⟨reportResults h m q v, BitVec.ofNat 8 q.pos⟩ := by
  obtain ⟨h, eh, e⟩ := bind_eq_ok e
  obtain ⟨m, em, e⟩ := bind_eq_ok e
  obtain ⟨q, eq, e⟩ := bind_eq_ok e
  obtain ⟨v, ev, e⟩ := bind_eq_ok e
  exact ⟨h, m, q, v, eh, em, eq, ev, by cases e; rfl⟩

/-- The phases one after the other: when each gives a result, `REPORT` completes with it (R124). -/
theorem evalReport_of_phases {c : VClass} {s : State} {h : ReportHeader} {m : ReportNumeric} {q : ReportPrevious}
    {v : ReportScale} (eh : parseHeader c s = .ok h) (em : parseNumeric c h s = .ok m) (eq : parsePrevious h m s = .ok q)
    (ev : validateReport c h m s = .ok v) : evalReport c s = .ok ⟨reportResults h m q v, BitVec.ofNat 8 q.pos⟩ := by
  simp [evalReport, eh, em, eq, ev]

/-- What a legal header parses to (R124). -/
theorem parseHeader_of_legal {c : VClass} {s : State} (hn : 3 ≤ addressable s)
    (hq : quantityTypeLegal c (qtypeField (readByte s 1))) (hz : elementSizeLegal (sizeField (readByte s 2))) :
    parseHeader c s = .ok
      { qt := qtypeField (readByte s 1), rate := rateField c (readByte s 1),
        exporting := exportingFlag s.params c (rateField c (readByte s 1)), size := sizeField (readByte s 2),
        prec := precField (readByte s 2), scale3 := composedScale c (readByte s 1) (readByte s 2) } := by
  unfold parseHeader
  rw [if_neg (Nat.not_lt.2 hn), if_neg (not_not.2 hq), if_neg (not_not.2 (rateField_legal c _)), if_neg (not_not.2 hz)]

/-- The ranges of the header fields (R16, R83). -/
theorem field_bounds (c : VClass) (b1 b2 : Byte) :
    qtypeField b1 < 32 ∧ rateField c b1 < 4 ∧ sizeField b2 < 8 ∧ precField b2 < 8 ∧ scaleHighField b1 < 2 ∧
    scaleLowField b2 < 4 ∧ composedScale c b1 b2 < 8 := by
  have h1 : scaleHighField b1 < 2 := bitsOf_lt _ _ _
  have h2 : scaleLowField b2 < 4 := bitsOf_lt _ _ _
  have hr : rateField c b1 < 4 := by
    unfold rateField
    split
    · omega
    · exact bitsOf_lt _ _ _
  refine ⟨bitsOf_lt _ _ _, hr, bitsOf_lt _ _ _, bitsOf_lt _ _ _, h1, h2, ?_⟩
  unfold composedScale
  split <;> omega

end Sys2Proof.Machine
end

