-- ==== Sys2Proof/Laws/Fields.lean ====
section
/-! SUPPORT. The bit fields of the header bytes as arithmetic on the byte's value. -/

namespace Sys2Proof.Machine

/-- A bit field is a quotient and a remainder. -/
theorem bitsOf_eq (v hi lo : Nat) : bitsOf v hi lo = v / 2 ^ lo % 2 ^ (hi + 1 - lo) := by
  simp [bitsOf, Nat.shiftRight_eq_div_pow]

theorem qtypeField_eq (b : Byte) : qtypeField b = b.toNat % 32 := by simp [qtypeField, bitsOf_eq]

theorem sizeField_eq (b : Byte) : sizeField b = b.toNat % 8 := by simp [sizeField, bitsOf_eq]

theorem precField_eq (b : Byte) : precField b = b.toNat / 32 := by
  have := b.isLt
  simp only [precField, bitsOf_eq]
  omega

theorem scaleLowField_eq (b : Byte) : scaleLowField b = b.toNat / 8 % 4 := by simp [scaleLowField, bitsOf_eq]

theorem scaleHighField_eq (b : Byte) : scaleHighField b = b.toNat / 128 := by
  have := b.isLt
  simp only [scaleHighField, bitsOf_eq]
  omega

theorem rateField_eq (c : VClass) (b : Byte) : rateField c b = if c.num = 1 then 0 else b.toNat / 32 % 4 := by
  simp [rateField, bitsOf_eq]

theorem composedScale_eq (c : VClass) (b1 b2 : Byte) :
    composedScale c b1 b2 = (if 3 ≤ c.num then b1.toNat / 128 * 4 else 0) + b2.toNat / 8 % 4 := by
  simp only [composedScale, scaleHighField_eq, scaleLowField_eq]
  split <;> omega

/-- The base bitmaps as remainders (R79). -/
theorem baseBitmap_eq (c : VClass) (b : Byte) :
    baseBitmap c b = match c with
      | .v1 => 0
      | .v2 => b.toNat % 16
      | .v3 => b.toNat
      | .v4 => b.toNat % 128
      | .v5 => b.toNat % 128 := by
  have := b.isLt
  cases c <;> (simp [baseBitmap, bitsOf_eq]; try omega)

/-- Bit 7 of a byte is its most significant bit. -/
theorem testBit_seven_eq_msb (b : Byte) : b.toNat.testBit 7 = b.msb := by
  rw [BitVec.msb_eq_getLsbD_last]
  rfl

/-- Bit 7 of a byte is up from 128 on. -/
theorem msb_eq_decide (b : Byte) : b.msb = decide (128 ≤ b.toNat) := by
  rw [BitVec.msb_eq_decide]

/-- The two bytes of delta-time, high byte first (R76). -/
theorem beValue_pair (s : State) (k : Nat) :
    beValue (readBytes s k 2) = (readByte s k).toNat * 256 + (readByte s (k + 1)).toNat := by
  simp [beValue, readBytes]

end Sys2Proof.Machine
end

