-- ==== Sys2Proof/Laws/Supported.lean ====
section
/-! SUPPORT. What `SUPPORTED` says when it gives a result, and the bits of its three bitmaps. -/

namespace Sys2Proof.Machine

/-- The bits of a bitmap extended by `n` bytes from byte `j` on (R80, R141). -/
theorem orExtension_testBit (s : State) (n j mask i : Nat) :
    (orExtension s j n mask).testBit i = true ↔
      mask.testBit i = true ∨ ∃ d, j ≤ d ∧ d < j + n ∧
        ((readByte s (4 + d)).toNat <<< (supExtBit s.params + 8 * d)).testBit i = true := by
  induction n generalizing j mask with
  | zero =>
    simp only [orExtension]
    constructor
    · exact .inl
    · rintro (h | ⟨d, h1, h2, -⟩)
      · exact h
      · omega
  | succ n ih =>
    simp only [orExtension]
    rw [ih]
    simp only [Nat.testBit_or, Bool.or_eq_true]
    constructor
    · rintro ((h | h) | ⟨d, h1, h2, h⟩)
      · exact .inl h
      · exact .inr ⟨j, Nat.le_refl j, by omega, h⟩
      · exact .inr ⟨d, by omega, by omega, h⟩
    · rintro (h | ⟨d, h1, h2, h⟩)
      · exact .inl (.inl h)
      · rcases Nat.eq_or_lt_of_le h1 with rfl | h1
        · exact .inl (.inr h)
        · exact .inr ⟨d, by omega, by omega, h⟩

/-- The bits of one half of the split (R142). -/
theorem splitMask_testBit (p : Params) (base : Int) (mask : Nat) (hit : Bool) (n i : Nat) :
    (splitMask p base mask hit n).testBit i =
      (decide (i < n) && mask.testBit i && (regHas p (base + i) == hit)) := by
  induction n with
  | zero => simp [splitMask]
  | succ n ih =>
    simp only [splitMask, Nat.testBit_or, ih]
    by_cases hi : i = n
    · subst hi
      split
      · rename_i hc
        simp only [Bool.and_eq_true] at hc
        simp [hc.1, hc.2, Nat.testBit_shiftLeft]
      · rename_i hc
        simp only [Bool.not_eq_true] at hc
        simp [hc]
    · have hlt : decide (i < n + 1) = decide (i < n) := by
        simp only [decide_eq_decide]
        omega
      have hb : Nat.testBit (if mask.testBit n && (regHas p (base + n) == hit) then 1 <<< n else 0) i = false := by
        split
        · simp [Nat.shiftLeft_eq, Nat.testBit_two_pow]
          omega
        · simp
      rw [hlt, hb, Bool.or_false]

/-- Composing the bitmap gives byte 2's bits, extended only under the flag and within the bounds (R140, R141). -/
theorem composeBitmap_ok {c : VClass} {s : State} {mask : Nat} (e : composeBitmap c s = .ok mask) :
    (extensionFlag c (readByte s 2) = false ∧ mask = baseBitmap c (readByte s 2)) ∨
    (extensionFlag c (readByte s 2) = true ∧ 4 + (readByte s 3).toNat ≤ addressable s ∧
     (readByte s 3).toNat ≤ maxExt s.params ∧ mask = orExtension s 0 (readByte s 3).toNat (baseBitmap c (readByte s 2))) := by
  unfold composeBitmap at e
  split at e
  · rename_i hf
    unfold extendBitmap at e
    split at e
    · cases e
    · split at e
      · cases e
      · split at e
        · cases e
        · rename_i h1 h2 h3
          cases e
          exact .inr ⟨hf, Nat.le_of_not_lt h3, Nat.le_of_not_lt h2, rfl⟩
  · rename_i hf
    cases e
    exact .inl ⟨by simpa using hf, rfl⟩

/-- A `SUPPORTED` that completes (R143). -/
theorem evalSupported_ok {c : VClass} {s : State} {r : Completion} (e : evalSupported c s = .ok r) :
    3 ≤ addressable s ∧ qtypeField (readByte s 1) ≤ 5 ∧ ∃ mask, composeBitmap c s = .ok mask ∧
      r = ⟨supportedResults s.params (qtypeField (readByte s 1)) (canResetField (readByte s 1)) mask, s.pos⟩ := by
  unfold evalSupported at e
  split at e
  · cases e
  · split at e
    · cases e
    · rename_i h1 h2
      obtain ⟨mask, em, er⟩ := bind_eq_ok e
      cases er
      exact ⟨Nat.le_of_not_lt h1, Nat.le_of_not_lt h2, mask, em, rfl⟩

/-- The base bitmap has at most 8 bits, and 7 from class 4 (R79). -/
theorem baseBitmap_lt (c : VClass) (b2 : Byte) : baseBitmap c b2 < 256 ∧ (4 ≤ c.num → baseBitmap c b2 < 128) := by
  have h2 := bitsOf_lt b2.toNat 3 0
  have h3 := bitsOf_lt b2.toNat 7 0
  have h4 := bitsOf_lt b2.toNat 6 0
  norm_num at h2 h3 h4
  cases c <;> simp only [baseBitmap, VClass.num] <;> omega

end Sys2Proof.Machine
end

