-- ==== Sys2Proof/Laws/Step.lean ====
section
/-! SUPPORT. What an operation and a step can do: `exec` ends done or rejected, a step is one access of the host. -/

namespace Sys2Proof.Machine

/-- The evaluation behind each operation (R11). -/
def evalOf : Instr → State → Eval Completion
  | .reportV1, s => evalReport .v1 s
  | .reportV2, s => evalReport .v2 s
  | .reportV3, s => evalReport .v3 s
  | .reportV4, s => evalReport .v4 s
  | .reportV5, s => evalReport .v5 s
  | .supportedV1, _ => .reject .unsupportedOperation
  | .supportedV2, s => evalSupported .v2 s
  | .supportedV3, s => evalSupported .v3 s
  | .supportedV4, s => evalSupported .v4 s
  | .valueS1 prec off, s => evalValue 1 prec off s
  | .valueS2 prec off, s => evalValue 2 prec off s
  | .valueS4 prec off, s => evalValue 4 prec off s
  | .packScaleV1 _, s => packDone s 0 0 0
  | .packScaleV2 scale, s => packDone s 1 (requestByte 2 scale) 0
  | .packScaleV3 scale, s => packDone s 1 (requestByte 3 scale) 0
  | .packScaleV4 scale, s => evalPackScaleV4 scale s

/-- Every operation is its evaluation, then the commit rule (R36). -/
theorem exec_eq_finish (i : Instr) (s : State) : exec i s = finishOperation s (evalOf i s) := by cases i <;> rfl

/-- A `VALUE` that completes (R97). -/
theorem evalValue_ok {size prec off : Nat} {s : State} {r : Completion} (e : evalValue size prec off s = .ok r) :
    off + size ≤ addressable s ∧ ∃ raw, signedField s.params (readBytes s off size) = .ok raw ∧
      r = ⟨valueResults size prec raw, s.pos⟩ := by
  unfold evalValue at e
  split at e
  · rename_i h
    obtain ⟨raw, er, eq⟩ := bind_eq_ok e
    exact ⟨h, raw, er, by cases eq; rfl⟩
  · cases e

/-- A `PACKSCALE.V4` that completes (R154). -/
theorem evalPackScaleV4_ok {scale : Nat} {s : State} {r : Completion} (e : evalPackScaleV4 scale s = .ok r) :
    (scale ≤ 7 ∧ r = ⟨packResults 1 (requestByte 3 scale) 0, s.pos⟩) ∨
    (8 ≤ scale ∧ scale ≤ 263 ∧ r = ⟨packResults 2 s.params.packMarker.toNat (scale - 8), s.pos⟩) := by
  unfold evalPackScaleV4 at e
  split at e
  · rename_i h
    exact .inl ⟨h, by cases e; rfl⟩
  · rename_i h
    split at e
    · rename_i h2
      exact .inr ⟨by omega, h2, by cases e; rfl⟩
    · cases e

/-- Everything the `START` strobe can do with a next state: the named operation runs, or a rejection is entered
(R29, R84, R86). -/
theorem startOperation_next {s t : State} (h : startOperation s = .next t) :
    (∃ i, decode (commandOf s) = .ok i ∧ exec i s = .next t) ∨
    (decode (commandOf s) = .error .reservedOperation ∧ t = enterRejected s .unsupportedOperation) ∨
    (decode (commandOf s) = .error .illegalElementSize ∧ t = enterRejected s (.malformedField .elementSize)) := by
  unfold startOperation at h
  split at h
  · rename_i i hd
    exact .inl ⟨i, hd, h⟩
  · rename_i hd
    exact .inr (.inl ⟨hd, by cases h; rfl⟩)
  · rename_i hd
    exact .inr (.inr ⟨hd, by cases h; rfl⟩)
  · cases h

/-- Everything a write to `CTRL` can do with a next state (R29). -/
theorem writeCtrl_next {s t : State} {v : Word16} (h : writeCtrl s v = .next t) :
    t = s ∨ t = clearBlock s ∨ startOperation s = .next t ∨ startOperation (clearBlock s) = .next t := by
  unfold writeCtrl at h
  split at h
  · cases h; exact .inl rfl
  · exact .inr (.inr (.inl h))
  · cases h; exact .inr (.inl rfl)
  · exact .inr (.inr (.inr h))

/-- Everything a host write to a control or status register can do with a next state (R24, R32). -/
theorem writeCsr_next {s t : State} {n : Nat} {v : Word16} (h : writeCsr s n v = .next t) :
    (n = 0 ∧ writeCtrl s v = .next t) ∨ (n = 1 ∧ t = { s with op := v.setWidth 3 }) ∨
    (n = 2 ∧ t = { s with version := v.setWidth 8 }) ∨ (n = 3 ∧ t = { s with len := v.setWidth 8 }) ∨
    (n = 4 ∧ t = { s with arg := v }) ∨ (5 ≤ n ∧ t = s) := by
  unfold writeCsr at h
  split at h
  · exact .inl ⟨rfl, h⟩
  · exact .inr (.inl ⟨rfl, by cases h; rfl⟩)
  · exact .inr (.inr (.inl ⟨rfl, by cases h; rfl⟩))
  · exact .inr (.inr (.inr (.inl ⟨rfl, by cases h; rfl⟩)))
  · exact .inr (.inr (.inr (.inr (.inl ⟨rfl, by cases h; rfl⟩))))
  · rename_i h0 h1 h2 h3 h4
    refine .inr (.inr (.inr (.inr (.inr ⟨?_, by cases h; rfl⟩))))
    have a0 : n ≠ 0 := h0
    have a1 : n ≠ 1 := h1
    have a2 : n ≠ 2 := h2
    have a3 : n ≠ 3 := h3
    have a4 : n ≠ 4 := h4
    omega

/-- Everything a step can do with a next state: nothing pending, or one access of the host. -/
theorem step_next {s t : State} (h : step s = .next t) :
    (s.hostQueue = [] ∧ t = s) ∨ ∃ a rest, s.hostQueue = a :: rest ∧ hostStep a { s with hostQueue := rest } = .next t := by
  unfold step at h
  split at h
  · rename_i hq
    exact .inl ⟨hq, by cases h; rfl⟩
  · rename_i a rest hq
    exact .inr ⟨a, rest, hq, h⟩

end Sys2Proof.Machine
end

