-- ==== Sys2Proof/Laws/PerInstr.lean ====
section
/-! SUPPORT. One lemma per operation: the registers its encoder writes select its own row of the table (R69, R91). -/

namespace Sys2Proof.Laws.EncodedRow

/-- The encoded command of a well-formed operation meets the mask and match of the operation's row. -/
def Statement (i : Instr) : Prop := i.wellFormed = true → selector (encode i) &&& rowMask i = rowMatch i

theorem reportV1 : Statement .reportV1 := fun _ => by decide

theorem reportV2 : Statement .reportV2 := fun _ => by decide

theorem reportV3 : Statement .reportV3 := fun _ => by decide

theorem reportV4 : Statement .reportV4 := fun _ => by decide

theorem reportV5 : Statement .reportV5 := fun _ => by decide

theorem supportedV1 : Statement .supportedV1 := fun _ => by decide

theorem supportedV2 : Statement .supportedV2 := fun _ => by decide

theorem supportedV3 : Statement .supportedV3 := fun _ => by decide

theorem supportedV4 : Statement .supportedV4 := fun _ => by decide

/-- The low three bits of the `ARG` of `VALUE` are its element size. -/
theorem argSize_encodeValueArg {size : Nat} (prec off : Nat) (h : size < 8) :
    argSize (encodeValueArg size prec off) = size := by
  simp only [argSize, encodeValueArg, bitsOf, BitVec.toNat_ofNat, Nat.shiftRight_zero]
  omega

theorem valueS1 (prec off : Nat) : Statement (.valueS1 prec off) := fun _ => by
  simp only [selector, encode, rowMask, rowMatch, argSize_encodeValueArg prec off (show 1 < 8 by omega)]
  decide

theorem valueS2 (prec off : Nat) : Statement (.valueS2 prec off) := fun _ => by
  simp only [selector, encode, rowMask, rowMatch, argSize_encodeValueArg prec off (show 2 < 8 by omega)]
  decide

theorem valueS4 (prec off : Nat) : Statement (.valueS4 prec off) := fun _ => by
  simp only [selector, encode, rowMask, rowMatch, argSize_encodeValueArg prec off (show 4 < 8 by omega)]
  decide

/-- A selector of a version-dependent row is decided by `OP` and the class: the three bits below do not count. -/
theorem low_bits_masked (op version : Nat) (z : Nat) (hz : z < 8) :
    BitVec.ofNat 9 (op * 64 + version * 8 + z) &&& 0x1F8 = BitVec.ofNat 9 (op * 64 + version * 8) := by
  apply BitVec.eq_of_toNat_eq
  have h1 : (0x1F8 : BitVec 9).toNat = 63 * 2 ^ 3 := by decide
  simp only [BitVec.toNat_and, BitVec.toNat_ofNat, h1]
  apply Nat.eq_of_testBit_eq
  intro i
  have e1 : op * 64 + version * 8 + z = 2 ^ 3 * (op * 8 + version) + z := by omega
  have e2 : op * 64 + version * 8 = 2 ^ 3 * (op * 8 + version) := by omega
  have e3 : (63 : Nat) * 2 ^ 3 = (2 ^ 6 - 1) <<< 3 := by decide
  rw [Nat.testBit_and, Nat.testBit_mod_two_pow, Nat.testBit_mod_two_pow, e1, e2, e3, Nat.testBit_shiftLeft,
    Nat.testBit_two_pow_sub_one, Nat.testBit_two_pow_mul_add _ (show z < 2 ^ 3 by omega), Nat.testBit_two_pow_mul]
  by_cases hi : i < 3
  · simp [hi, Nat.not_le.2 hi]
  · have h3 : 3 ≤ i := by omega
    by_cases h9 : i < 9
    · have : i - 3 < 6 := by omega
      simp [hi, h3, h9, this]
    · simp [h9]

theorem packScaleV1 (scale : Nat) : Statement (.packScaleV1 scale) := fun _ => by
  have h : argSize (BitVec.ofNat 16 scale) < 8 := Machine.bitsOf_lt _ _ _
  exact (low_bits_masked 4 1 _ h).trans rfl

theorem packScaleV2 (scale : Nat) : Statement (.packScaleV2 scale) := fun _ => by
  have h : argSize (BitVec.ofNat 16 scale) < 8 := Machine.bitsOf_lt _ _ _
  exact (low_bits_masked 4 2 _ h).trans rfl

theorem packScaleV3 (scale : Nat) : Statement (.packScaleV3 scale) := fun _ => by
  have h : argSize (BitVec.ofNat 16 scale) < 8 := Machine.bitsOf_lt _ _ _
  exact (low_bits_masked 4 3 _ h).trans rfl

theorem packScaleV4 (scale : Nat) : Statement (.packScaleV4 scale) := fun _ => by
  have h : argSize (BitVec.ofNat 16 scale) < 8 := Machine.bitsOf_lt _ _ _
  have e : (0x1F0 : BitVec 9) = 0x1F8 &&& 0x1F0 := by decide
  show BitVec.ofNat 9 (4 * 64 + 4 * 8 + argSize (BitVec.ofNat 16 scale)) &&& 0x1F0 = 0x120
  rw [e, ← BitVec.and_assoc, low_bits_masked 4 4 _ h]
  decide

end Sys2Proof.Laws.EncodedRow
end

