-- ==== Sys2Proof/Laws/Ranges.lean ====
section
/-! SUPPORT. The ranges of what the operations compute: fields, values, texts, bitmaps (R16, R18). -/

namespace Sys2Proof.Machine

/-- What `REPORT`'s run is: the evaluation of its class, then the commit rule. -/
theorem exec_decodeReport (c : VClass) (s : State) : exec (decodeReport c) s = finishOperation s (evalReport c s) := by
  cases c <;> rfl

/-- A value in the range of `RAW` survives its register (R16). -/
theorem ofInt64_toInt {r : Int} (h : -2147483648 ≤ r ∧ r < 4294967296) : (BitVec.ofInt 64 r).toInt = r := by
  rw [BitVec.toInt_ofInt]; norm_num [Int.bmod]; omega

/-- A FlatIndex of a legal type and an 8-bit scale survives its register (R16). -/
theorem flatIndex_toInt {qt scale : Nat} (h : qt ≤ 5) (h2 : scale < 256) :
    (BitVec.ofInt 16 (flatIndex qt scale)).toInt = flatIndex qt scale := by
  rw [BitVec.toInt_ofInt]; unfold flatIndex; norm_num [Int.bmod]; omega

/-- The ranges of everything a completing report computes, each as wide as its register (R16). -/
theorem reportPhases_bounds {c : VClass} {s : State} {hh m q v} (a : parseHeader c s = .ok hh)
    (b : parseNumeric c hh s = .ok m)
    (d : parsePrevious hh m s = .ok q) (e : validateReport c hh m s = .ok v) :
    hh.qt < 32 ∧ hh.qt ≤ 5 ∧ 1 ≤ hh.qt ∧ hh.rate < 4 ∧ hh.size < 8 ∧ hh.prec < 8 ∧ hh.scale3 < 8 ∧
      m.delta < 65536 ∧ v.scale < 256 ∧ v.ext < 248 ∧ q.pos ≤ addressable s := by
  obtain ⟨a1, a2, a3, rfl⟩ := parseHeader_ok a
  have fb := field_bounds c (readByte s 1) (readByte s 2)
  obtain ⟨b1, b2, b3⟩ := parseNumeric_ok b
  have hdel : m.delta < 65536 := by
    rcases b3 with ⟨-, h, -⟩ | ⟨-, -, h, -⟩
    · omega
    · have := beValue_lt (readBytes s (3 + sizeField (readByte s 2)) 2); simp at this; simp only at h; omega
  obtain ⟨e1, e2, e3⟩ := validateReport_ok e
  have mq : maxQuantityType c ≤ 5 := by unfold maxQuantityType; split <;> omega
  have hpos : q.pos ≤ addressable s := by
    rcases parsePrevious_ok d with ⟨-, rfl⟩ | ⟨-, h, -, -, h2⟩
    · rcases b3 with ⟨-, -, h⟩ | ⟨-, h, -, h'⟩ <;> simp only at * <;> omega
    · omega
  have ha2 := a2.1; have ha3 := a2.2
  rcases resolveScale_ok e2 with ⟨-, rfl⟩ | ⟨-, -, h1, -, h2⟩
  · simp only at *
    refine ⟨fb.1, by omega, by omega, fb.2.1, fb.2.2.1, fb.2.2.2.1, fb.2.2.2.2.2.2, hdel, ?_,
      by omega, hpos⟩
    have := fb.2.2.2.2.2.2; omega
  · simp only at *
    exact ⟨fb.1, by omega, by omega, fb.2.1, fb.2.2.1, fb.2.2.2.1, fb.2.2.2.2.2.2, hdel,
      by omega, h1, hpos⟩

/-- The padded form has the width asked for (R104). -/
theorem fixedDigits_length (n v : Nat) : (fixedDigits n v).length = n := by
  induction n generalizing v with
  | zero => rfl
  | succ n ih => simp [fixedDigits, ih]

/-- A number below `10^n` has at most `n` digits (R104). -/
theorem naturalDigits_length (f n v : Nat) (hv : v < 10 ^ n) (hn : 1 ≤ n) : (naturalDigits f v).length ≤ n := by
  induction f generalizing n v with
  | zero => simp [naturalDigits]
  | succ f ih =>
    unfold naturalDigits
    split
    · simpa using hn
    · have : 2 ≤ n := by
        rcases Nat.lt_or_ge n 2 with h | h
        · have : n = 1 := by omega
          subst this; omega
        · exact h
      obtain ⟨k, rfl⟩ : ∃ k, n = k + 1 := ⟨n - 1, by omega⟩
      have := ih k (v/10) (by rw [pow_succ] at hv; omega) (by omega)
      simp; omega

/-- An extended bitmap fits `BITMAP_BITS` (R106 (g)). -/
theorem orExtension_lt {s : State} (n j mask : Nat) (hp : s.params.wf) (hm : mask < 256)
    (hn : j + n ≤ maxExt s.params) : orExtension s j n mask < 2 ^ s.params.bitmapBits := by
  apply Nat.lt_pow_two_of_testBit
  intro i hi
  by_contra hc
  rw [Bool.not_eq_false, orExtension_testBit] at hc
  have h8 := hp.1
  rcases hc with h | ⟨d, h1, h2, h⟩
  · rw [Nat.testBit_lt_two_pow (lt_of_lt_of_le hm (by calc 256 = 2^8 := rfl
      _ ≤ 2 ^ i := Nat.pow_le_pow_right (by norm_num) (by omega)))] at h; cases h
  · have := maxExt_fits s.params (j := d) (by omega)
    rw [Nat.testBit_shiftLeft] at h
    simp only [Bool.and_eq_true, decide_eq_true_eq] at h
    have hb := (readByte s (4 + d)).isLt
    rw [Nat.testBit_lt_two_pow (lt_of_lt_of_le hb (Nat.pow_le_pow_right (by norm_num) (by omega)))] at h
    exact absurd h.2 (by simp)

/-- Every bitmap that completes fits `BITMAP_BITS` (R106 (g)). -/
theorem composeBitmap_lt {c : VClass} {s : State} {mask : Nat} (hp : s.params.wf) (e : composeBitmap c s = .ok mask) :
    mask < 2 ^ s.params.bitmapBits := by
  have hb := (baseBitmap_lt c (readByte s 2)).1
  rcases composeBitmap_ok e with ⟨-, rfl⟩ | ⟨-, -, h, rfl⟩
  · exact lt_of_lt_of_le hb (by calc 256 = 2^8 := rfl
      _ ≤ 2 ^ _ := Nat.pow_le_pow_right (by norm_num) hp.1)
  · exact orExtension_lt _ _ _ hp hb (by omega)

/-- The two halves of the split make up the bitmap (R142). -/
theorem splitMask_or (p : Params) (base : Int) (mask n : Nat) (h : mask < 2 ^ n) :
    splitMask p base mask true n ||| splitMask p base mask false n = mask := by
  apply Nat.eq_of_testBit_eq; intro i
  rw [Nat.testBit_or, splitMask_testBit, splitMask_testBit]
  by_cases hi : i < n
  · cases regHas p (base + i) <;> simp [hi]
  · rw [Nat.testBit_lt_two_pow (lt_of_lt_of_le h (Nat.pow_le_pow_right (by norm_num) (by omega)))]; simp

/-- The two halves of the split are disjoint (R142). -/
theorem splitMask_and (p : Params) (base : Int) (mask n : Nat) :
    splitMask p base mask true n &&& splitMask p base mask false n = 0 := by
  apply Nat.eq_of_testBit_eq; intro i
  rw [Nat.testBit_and, splitMask_testBit, splitMask_testBit]
  cases regHas p (base + i) <;> simp

end Sys2Proof.Machine
end

