-- ==== Sys2Proof/Tests/Slice0.lean ====
section
/-! SUPPORT. Tests of the model against words, vectors and worked examples of the spec (each cites its source), and for
every statement with hypotheses a witness that meets them. -/

namespace Sys2Proof.Machine

/-! ## Helpers -/

/-- Payload bytes from index `k` on. -/
def bytesFrom : Nat → List Byte → Memory
  | _, [] => []
  | k, b :: bs => (k, b) :: bytesFrom (k + 1) bs

/-- A block after reset into which the host wrote these payload bytes and `LEN` (R89). -/
def payload (bytes : List Byte) : State :=
  { State.reset with
    len := BitVec.ofNat 8 (bytes.length + 1)
    pb := bytesFrom 0 bytes }

/-- The same with the command registers written. -/
def commanded (op version arg : Nat) (bytes : List Byte) : State :=
  { payload bytes with
    op := BitVec.ofNat 3 op
    version := BitVec.ofNat 8 version
    arg := BitVec.ofNat 16 arg }

/-- A block whose 4-byte fields with the top bit set follow the given choice. -/
def choosing (c : Size4Msb) (s : State) : State := { s with params := { Params.default with size4Msb := c } }

/-- The next state of an outcome, if it has one. -/
def after? : Host.Outcome State Fault Refusal → Option State
  | .next t => some t
  | .fault _ => none
  | .refused _ => none

/-- The refusal of an outcome, if it is one. -/
def refusal? : Host.Outcome State Fault Refusal → Option Refusal
  | .next _ => none
  | .fault _ => none
  | .refused r => some r

/-- `PHASE` and `REASON` after an outcome. -/
def ending (o : Host.Outcome State Fault Refusal) : Option (Phase × BitVec 8) := (after? o).map fun t => (t.phase, t.reason)

/-! ## WellFormed: each check refuses an ill-formed operation -/

theorem test_wf_valueS1_precision : (Instr.valueS1 8 0).wellFormed = false := by decide
theorem test_wf_valueS1_offset : (Instr.valueS1 0 256).wellFormed = false := by decide
theorem test_wf_valueS2_precision : (Instr.valueS2 8 0).wellFormed = false := by decide
theorem test_wf_valueS2_offset : (Instr.valueS2 0 256).wellFormed = false := by decide
theorem test_wf_valueS4_precision : (Instr.valueS4 8 0).wellFormed = false := by decide
theorem test_wf_valueS4_offset : (Instr.valueS4 0 256).wellFormed = false := by decide
theorem test_wf_packScaleV1 : (Instr.packScaleV1 512).wellFormed = false := by decide
theorem test_wf_packScaleV2 : (Instr.packScaleV2 512).wellFormed = false := by decide
theorem test_wf_packScaleV3 : (Instr.packScaleV3 512).wellFormed = false := by decide
theorem test_wf_packScaleV4 : (Instr.packScaleV4 512).wellFormed = false := by decide

/-! ## Decode: the word of every constructor, written bit by bit as `OP` `VCLASS` `ARG[2:0]` (R69, R91) -/

theorem test_decode_reportV1 : decodeTableWord 16 0b001_001_000 = some .reportV1 := by decide
theorem test_decode_reportV2 : decodeTableWord 16 0b001_010_101 = some .reportV2 := by decide
theorem test_decode_reportV3 : decodeTableWord 16 0b001_011_000 = some .reportV3 := by decide
theorem test_decode_reportV4 : decodeTableWord 16 0b001_100_111 = some .reportV4 := by decide
theorem test_decode_reportV5 : decodeTableWord 16 0b001_101_000 = some .reportV5 := by decide
theorem test_decode_supportedV1 : decodeTableWord 16 0b010_001_000 = some .supportedV1 := by decide
theorem test_decode_supportedV2 : decodeTableWord 16 0b010_010_000 = some .supportedV2 := by decide
theorem test_decode_supportedV3 : decodeTableWord 16 0b010_011_000 = some .supportedV3 := by decide
theorem test_decode_supportedV4 : decodeTableWord 16 0b010_100_000 = some .supportedV4 := by decide
theorem test_decode_supportedV5 : decodeTableWord 16 0b010_101_010 = some .supportedV4 := by decide
theorem test_decode_valueS1 : decodeTableWord 16 0b011_000_001 = some (.valueS1 0 0) := by decide
theorem test_decode_valueS2 : decodeTableWord 16 0b011_011_010 = some (.valueS2 0 0) := by decide
theorem test_decode_valueS4 : decodeTableWord 16 0b011_111_100 = some (.valueS4 0 0) := by decide
theorem test_decode_packScaleV1 : decodeTableWord 16 0b100_001_011 = some (.packScaleV1 3) := by decide
theorem test_decode_packScaleV2 : decodeTableWord 16 0b100_010_010 = some (.packScaleV2 2) := by decide
theorem test_decode_packScaleV3 : decodeTableWord 16 0b100_011_110 = some (.packScaleV3 6) := by decide
theorem test_decode_packScaleV4 : decodeTableWord 16 0b100_100_000 = some (.packScaleV4 0) := by decide
theorem test_decode_packScaleV5 : decodeTableWord 16 0b100_101_111 = some (.packScaleV4 7) := by decide

/-- `ARG` of `VALUE s2 p2 @3` and of `PACKSCALE v5 511`, written bit by bit (R28). -/
theorem test_decode_arg_fields :
    decode ⟨0b011, 0, 0b00000011_010_00_010⟩ = .ok (.valueS2 2 3) ∧
    decode ⟨0b011, 0, 0b11111111_111_11_100⟩ = .ok (.valueS4 7 255) ∧
    decode ⟨0b100, 5, 0b0000000_111111111⟩ = .ok (.packScaleV4 511) ∧
    decode ⟨0b100, 5, 0b1111111_000000000⟩ = .ok (.packScaleV4 0) := by decide

/-- The reserved command values (R84, R86), and selectors whose class no version has (R68). -/
theorem test_decode_rejects :
    decode ⟨0, 1, 0⟩ = .error .reservedOperation ∧ decode ⟨7, 0, 0⟩ = .error .reservedOperation ∧
    decode ⟨3, 1, 3⟩ = .error .illegalElementSize ∧ decode ⟨1, 0, 0⟩ = .error .versionZero ∧
    decodeTableWord 16 0b001_110_000 = none ∧ decodeTableWord 16 0b100_111_000 = none ∧
    decodeTableWord 16 0b011_000_011 = none ∧ decodeTableWord 16 0b101_001_000 = none := by decide

/-- Versions 6 and 255 fold to class 5 (R68). -/
theorem test_decode_folds : decode ⟨1, 6, 0⟩ = .ok .reportV5 ∧ decode ⟨1, 255, 0⟩ = .ok .reportV5 := by decide

/-! ## Memory -/

theorem test_memory_rising : memSet (memSet (memSet [] 5 1) 2 7) 5 9 = [(2, 7), (5, 9)] := by decide
theorem test_memory_read : memGet? (memSet [(2, 7), (5, 9)] 3 4) 5 = some 9 := by decide
theorem test_memory_wf_refuses : ¬ Memory.wf [(2, 7), (2, 8)] ∧ ¬ Memory.wf [(3, 7), (2, 8)] ∧ ¬ Memory.wf [(255, 1)] := by
  decide

/-! ## REPORT: the examples of R125 to R129 -/

/-- `REPORT v1 : 01 01 21 7B`. -/
def reportOne : State := payload [0x01, 0x01, 0x21, 0x7B]

theorem test_reportV1 :
    (after? (exec .reportV1 reportOne)).map (fun t => (t.phase, t.res.raw.toInt, t.res.t0, t.res.flatidx.toInt, t.pos)) =
      some (.done, 123, [0x31, 0x32, 0x2E, 0x33], 0, 4) := by decide

/-- Quantity type 4 is Heat, illegal below class 4 (R112). -/
theorem test_reportV1_type : ending (exec .reportV1 (payload [0x01, 0x04, 0x21, 0x7B])) = some (.rejected, 0x11) := by decide

/-- `REPORT v2 : 01 41 4A 01 F4 00 00`. -/
def reportTwo : State := payload [0x01, 0x41, 0x4A, 0x01, 0xF4, 0x00, 0x00]

theorem test_reportV2 :
    (after? (exec .reportV2 reportTwo)).map (fun t => (t.res.rate, t.res.scale, t.res.raw.toInt, t.res.exporting, statusWord t)) =
      some (2, 1, 500, true, 0x0095) := by decide

/-- spec/95_test_vectors.md, program 2, line 2: element size 3. -/
theorem test_reportV2_size :
    ending (exec .reportV2 (payload [0x01, 0x41, 0x4B, 0x01, 0xF4, 0x00, 0x00])) = some (.rejected, 0x31) := by decide

/-- `REPORT v3 : 01 81 74 00 00 30 39 00 00`: the scale's high bit counts, as it does not in version 2. -/
def reportThree : State := payload [0x01, 0x81, 0x74, 0x00, 0x00, 0x30, 0x39, 0x00, 0x00]

theorem test_reportV3 :
    (after? (exec .reportV3 reportThree)).map (fun t => (t.res.scale3, t.res.flatidx.toInt, t.res.raw.toInt)) = some (6, 6, 12345) ∧
    (after? (exec .reportV2 reportThree)).map (fun t => (t.res.scale3, t.res.flatidx.toInt)) = some (2, 2) := by decide

/-- spec/95_test_vectors.md, program 1, line 3: a previous value, and its end state's `STATUS`. -/
theorem test_reportV3_previous :
    (after? (exec .reportV3 (payload [0x01, 0x21, 0x32, 0x01, 0xF4, 0x00, 0x3C, 0x01, 0x90]))).map
      (fun t => (t.res.delta, t.res.praw.toInt, t.res.t1, statusWord t)) =
      some (60, 400, [0x34, 0x30, 0x2E, 0x30], 0x0115) := by decide

/-- `REPORT v4 : 01 81 5A 00 64 00 0A 00 03`: the scale-2 byte is the last byte of the previous value. -/
def reportFour : State := payload [0x01, 0x81, 0x5A, 0x00, 0x64, 0x00, 0x0A, 0x00, 0x03]

theorem test_reportV4 :
    (after? (exec .reportV4 reportFour)).map (fun t => (t.res.ext, t.res.scale, t.res.praw.toInt, t.res.flatidx.toInt)) =
      some (3, 11, 3, 11) := by decide

/-- R120, R131: the same bytes are one short for version 5. -/
theorem test_reportV5_length : ending (exec .reportV5 reportFour) = some (.rejected, 0x02) := by decide

/-- `01 81 5A 00 64 00 00 03` is version 5's form with a scale-2 byte of its own (R74, R129). -/
def reportFive (ext : Byte) : State := payload [0x01, 0x81, 0x5A, 0x00, 0x64, 0x00, 0x00, ext]

theorem test_reportV5 :
    (after? (exec .reportV5 (reportFive 3))).map (fun t => (t.res.scale, t.res.hasprev, t.res.flatidx.toInt)) =
      some (11, false, 11) := by decide

/-- R119: a scale-2 byte of 248 has no outcome. -/
theorem test_reportV4_overflow :
    refusal? (exec .reportV4 (payload [0x01, 0x81, 0x5A, 0x00, 0x64, 0x00, 0x0A, 0x00, 0xF8])) = some .scale2Overflow := by
  decide

/-! ## SUPPORTED: the examples of R144 to R147 -/

theorem test_supportedV1 : ending (exec .supportedV1 (payload [0x01, 0x81, 0x05])) = some (.rejected, 0x05) := by decide

theorem test_supportedV2 :
    (after? (exec .supportedV2 (payload [0x01, 0x02, 0xFF]))).map (fun t => (t.res.flatidx.toInt, t.res.supmask, t.res.resmask)) =
      some (16, 0x0F, 0x0F) := by decide

/-- spec/95_test_vectors.md, program 1, line 1. -/
theorem test_supportedV3 :
    (after? (exec .supportedV3 (payload [0x01, 0x81, 0x05]))).map (fun t => (t.res.supmask, t.res.canreset, t.res.warn)) =
      some (5, true, false) := by decide

theorem test_supportedV3_type : ending (exec .supportedV3 (payload [0x01, 0x06, 0x05])) = some (.rejected, 0x11) := by decide

/-- `SUPPORTED v4 : 01 85 FF 02 03 80`. -/
def supportedFour : State := payload [0x01, 0x85, 0xFF, 0x02, 0x03, 0x80]

theorem test_supportedV4 :
    (after? (exec .supportedV4 supportedFour)).map (fun t => (t.res.supmask, t.res.resmask, t.res.warnmask, t.res.warn)) =
      some (0x0080037F, 0x0000037F, 0x00800000, true) := by decide

theorem test_supportedV4_count : refusal? (exec .supportedV4 (payload [0x01, 0x85, 0xFF, 0x04, 0, 0, 0, 0])) = some .bitmapOverflow := by
  decide

/-! ## VALUE: the examples and corner cases of R99 to R102, R105 -/

theorem test_valueS1 :
    (after? (exec (.valueS1 1 3) reportOne)).map (fun t => (t.res.raw.toInt, t.res.t0, t.pos)) =
      some (123, [0x31, 0x32, 0x2E, 0x33], 0) ∧
    ending (exec (.valueS1 1 4) reportOne) = some (.rejected, 0x02) := by decide

/-- The byte `80` is -128; at precision 2 its text is `-1.28` (R98, R104). -/
theorem test_valueS1_negative :
    (after? (exec (.valueS1 2 0) (payload [0x80]))).map (fun t => (t.res.raw.toInt, t.res.t0)) =
      some (-128, [0x2D, 0x31, 0x2E, 0x32, 0x38]) := by decide

theorem test_valueS2 :
    (after? (exec (.valueS2 2 3) (payload [0x01, 0x81, 0x5A, 0x00, 0x64]))).map (fun t => (t.res.raw.toInt, t.res.t0)) =
      some (100, [0x31, 0x2E, 0x30, 0x30]) := by decide

theorem test_valueS2_negative : (after? (exec (.valueS2 0 0) (payload [0xFF, 0xFE]))).map (fun t => t.res.raw.toInt) = some (-2) := by
  decide

theorem test_valueS4 :
    (after? (exec (.valueS4 0 0) (payload [0x80, 0x00, 0x00, 0x00]))).map (fun t => t.res.raw.toInt) = some (-2147483648) := by decide

/-- `80 00 00 00` under the other choices of `SIZE4_MSB` (R102). -/
theorem test_valueS4_choices :
    (after? (exec (.valueS4 0 0) (choosing .positive (payload [0x80, 0x00, 0x00, 0x00])))).map (fun t => t.res.raw.toInt) =
      some 2147483648 ∧
    refusal? (exec (.valueS4 0 0) (choosing .refuse (payload [0x80, 0x00, 0x00, 0x00]))) = some .size4Msb := by decide

/-! ## PACKSCALE: the examples of R151 to R154 -/

theorem test_packScaleV1 : (after? (exec (.packScaleV1 3) State.reset)).map (fun t => (t.res.packn, t.res.packb)) = some (0, 0) := by
  decide
theorem test_packScaleV2 : (after? (exec (.packScaleV2 2) State.reset)).map (fun t => (t.res.packn, t.res.packb)) = some (1, 0x0010) := by
  decide
theorem test_packScaleV3 : (after? (exec (.packScaleV3 6) State.reset)).map (fun t => (t.res.packn, t.res.packb)) = some (1, 0x0030) := by
  decide
theorem test_packScaleV4 : (after? (exec (.packScaleV4 11) State.reset)).map (fun t => (t.res.packn, t.res.packb)) = some (2, 0x0338) := by
  decide
theorem test_packScaleV4_range : refusal? (exec (.packScaleV4 264) State.reset) = some .packScaleRange := by decide

/-! ## Text and float (R104, R105) -/

/-- `-2147483648` at precision 7 is `-214.7483648`, the longest text. -/
theorem test_render_longest :
    render (-2147483648) 7 = [0x2D, 0x32, 0x31, 0x34, 0x2E, 0x37, 0x34, 0x38, 0x33, 0x36, 0x34, 0x38] := by decide

/-- 1, -1, 0.1 and 12.3 as IEEE 754 binary64. -/
theorem test_float :
    toFloat 1 0 = 0x3FF0000000000000 ∧ toFloat (-1) 0 = 0xBFF0000000000000 ∧ toFloat 1 1 = 0x3FB999999999999A ∧
    toFloat 123 1 = 0x402899999999999A ∧ toFloat 0 3 = 0 := by decide

/-! ## The host's accesses -/

/-- The table word of `PACKSCALE.V2` with `ARG[2:0] = 2` runs as the first operation after reset (R152). -/
theorem test_fetch_word :
    (after? (step (State.reset.withFetchWord 16 0b100_010_010))).map (fun t => (t.res.packn, t.res.packb, t.hostQueue)) =
      some (1, 0x0010, []) := by decide

/-- A block commanded `PACKSCALE v4 11` whose host's next access is the given `CTRL` write. -/
def strobed (v : Word16) : State := { commanded 4 4 11 [] with hostQueue := [.writeCsr 0 v] }

/-- Program 2's use of the strobes: `START` runs the operation; `CLEAR` alone does not (R29). -/
theorem test_strobes :
    (after? (step (strobed 1))).map (fun t => (t.phase, t.res.packb)) = some (.done, 0x0338) ∧
    (after? (step (strobed 2))).map (fun t => (t.phase, t.res.packb)) = some (.idle, 0) ∧
    (after? (step (strobed 3))).map (fun t => (t.phase, t.res.packb)) = some (.done, 0x0338) := by decide

/-! ## Witnesses: a state and operands that meet the hypotheses of each statement, at the ends of each clause's range -/

theorem witness_DecodeInvertsEncode :
    (Instr.valueS4 7 255).wellFormed = true ∧ (Instr.packScaleV4 511).wellFormed = true ∧ Instr.reportV1.wellFormed = true := by
  decide

theorem witness_DecodedOperandsAreArgFields :
    decode ⟨3, 0, 0xFFE2⟩ = .ok (.valueS2 7 255) ∧ decode ⟨4, 2, 0xFFFF⟩ = .ok (.packScaleV2 511) := by decide

theorem witness_VersionsAboveFiveFold : 5 ≤ (5 : BitVec 8).toNat ∧ 5 ≤ (255 : BitVec 8).toNat := by decide

theorem witness_StepRunsDecodedOperation :
    (strobed 1).hostQueue = [.writeCsr 0 1] ∧ (1 : Word16).getLsbD 0 = true ∧ (3 : Word16).getLsbD 0 = true ∧
    decode (commandOf (strobed 1)) = .ok (.packScaleV4 11) ∧
    decode (commandOf { strobed 1 with op := 7 }) = .error .reservedOperation ∧
    decode (commandOf { strobed 3 with op := 3 }) = .error .illegalElementSize ∧
    decode (commandOf { strobed 3 with version := 0 }) = .error .versionZero := by decide

theorem witness_FetchWordRunsTableRow : decodeTableWord 9 0b001_101_000 = some .reportV5 := by decide

theorem witness_ReservedCommandValues :
    (commanded 0 1 0 []).op = 0 ∧ (commanded 7 1 0 []).op = 7 ∧ (commanded 4 0 0 []).op = 4 ∧ (commanded 4 0 0 []).version = 0 ∧
    (commanded 1 0 0 []).op = 1 ∧ (commanded 1 0 0 []).version = 0 ∧ (⟨3, 9, 1⟩ : Command).op = 3 := by decide

theorem witness_ValueIllegalSizeRejects :
    (commanded 3 0 3 []).op = 3 ∧ ((commanded 3 0 3 []).arg.extractLsb' 0 3).toNat ∉ [1, 2, 4] ∧
    ((commanded 3 0 0 []).arg.extractLsb' 0 3).toNat ∉ [1, 2, 4] ∧ ((commanded 3 0 7 []).arg.extractLsb' 0 3).toNat ∉ [1, 2, 4] := by
  decide

/-- A block after reset whose host's next access is the given one. -/
def accessed (a : HostAction) : State := { State.reset with hostQueue := [a] }

theorem witness_HostWritesInputRegisters :
    (accessed (.writeCsr 1 0xFFFF)).hostQueue = [.writeCsr 1 0xFFFF] ∧
    (after? (step (accessed (.writeCsr 1 0xFFFF)))).map (fun t => readCsr t 1) = some 7 ∧
    (after? (step (accessed (.writeCsr 4 0xFFFF)))).map (fun t => readCsr t 4) = some 0xFFFF := by decide

theorem witness_OtherAccessesHaveNoEffect :
    (accessed (.writeCsr 5 0xFFFF)).hostQueue = [.writeCsr 5 0xFFFF] ∧ (0xFFFC : Word16).getLsbD 0 = false ∧
    (0xFFFC : Word16).getLsbD 1 = false ∧ (accessed .read).hostQueue = [.read] ∧ State.reset.hostQueue = [] := by decide

theorem witness_ClearReturnsToIdle :
    (strobed 2).hostQueue = [.writeCsr 0 2] ∧ (2 : Word16).getLsbD 1 = true ∧ (2 : Word16).getLsbD 0 = false := by decide

theorem witness_ResetClearsTheBlock : (accessed .reset).hostQueue = [.reset] := by decide

theorem witness_PayloadWriteThenRead :
    (accessed (.writeByte 254 9)).hostQueue = [.writeByte 254 9] ∧ Memory.wf (accessed (.writeByte 254 9)).pb ∧ 254 < 255 ∧
    (accessed (.writeByte 255 9)).hostQueue = [.writeByte 255 9] := by decide

/-- The block at the end of `REPORT v2 : 01 41 4A 01 F4 00 00`. -/
def doneTwo : State :=
  { reportTwo with
    phase := .done
    pos := 7
    res := { Results.zero with
      qtype := 1
      rate := 2
      size := 2
      prec := 2
      scale3 := 1
      scale := 1
      raw := 500
      flatidx := 1
      t0 := [0x35, 0x2E, 0x30, 0x30]
      f0 := toFloat 500 2
      exporting := true } }

/-- A state of the invariant that is done and shows a flag: no reason stands, `REJ` is down. -/
theorem witness_StatusWordBits :
    BlockInv doneTwo ∧ doneTwo.phase = .done ∧ (readCsr doneTwo 5).getLsbD 7 = true ∧ (readCsr doneTwo 5).getLsbD 5 = false :=
  ⟨by constructor <;> decide, by decide⟩

theorem witness_ResultRegisterNumbers : BlockInv doneTwo ∧ doneTwo.res.t0.length = 4 := ⟨by constructor <;> decide, by decide⟩

theorem witness_EveryStepKeepsInvariant : BlockInv (strobed 1) ∧ (after? (step (strobed 1))).isSome = true :=
  ⟨by constructor <;> decide, by decide⟩

theorem witness_RegistryConstraints :
    Params.default.wf ∧ { Params.default with regMax := 320, regExtra := [80, 319] }.wf := by decide

/-- Two blocks with the same inputs and a different past: one has just rejected an operation. -/
theorem witness_OutcomeDependsOnSnapshotAlone :
    ∃ s t : State, s ≠ t ∧ s.op = t.op ∧ s.version = t.version ∧ s.len = t.len ∧ s.arg = t.arg ∧ s.params = t.params ∧
      0 < addressable s ∧ ∀ k, k < addressable s → readByte s k = readByte t k :=
  ⟨commanded 1 2 0 [0x01, 0x41], enterRejected (commanded 1 2 0 [0x01, 0x41]) .lengthMismatch, by decide, rfl, rfl, rfl, rfl,
    rfl, by decide, fun _ _ => rfl⟩

theorem witness_OperationWritesOutputsOnly :
    (after? (exec .reportV2 reportTwo)).map (fun t => t.phase) = some .done ∧
    (after? (exec .supportedV1 reportTwo)).map (fun t => t.phase) = some .rejected := by decide

theorem witness_UnwrittenOutputsStayZero :
    (after? (exec (decodeReport .v2) reportTwo)).isSome = true ∧ (after? (exec (decodeSupported .v5) supportedFour)).isSome = true ∧
    (after? (exec (.valueS1 7 3) reportOne)).isSome = true ∧ (after? (exec (decodePackScale 263 .v5) State.reset)).isSome = true := by
  decide

theorem witness_SignedFieldValue :
    (0x7F : Byte).msb = false ∧ (0x80 : Byte).msb = true ∧ Params.default.size4Msb = .negative ∧
    (choosing .positive State.reset).params.size4Msb = .positive ∧ (choosing .refuse State.reset).params.size4Msb = .refuse := by
  decide

/-- Four bytes of which the first has its top bit set. -/
def fourBytes : State := payload [0x80, 0x00, 0x00, 0x01]

theorem witness_ValueS1Completes : 7 < 8 ∧ 3 + 1 ≤ addressable fourBytes := by decide

theorem witness_ValueS2Completes : 7 < 8 ∧ 2 + 2 ≤ addressable fourBytes ∧
    (0x0001 : BitVec 16) = readByte fourBytes 2 ++ readByte fourBytes (2 + 1) := by decide

theorem witness_ValueS4Completes :
    7 < 8 ∧ 0 + 4 ≤ addressable fourBytes ∧
    (0x80000001 : BitVec 32) = readByte fourBytes 0 ++ readByte fourBytes (0 + 1) ++ readByte fourBytes (0 + 2) ++
      readByte fourBytes (0 + 3) ∧
    (0x80000001 : BitVec 32).msb = true ∧ fourBytes.params.size4Msb = .negative ∧
    (choosing .positive fourBytes).params.size4Msb = .positive ∧ (choosing .refuse fourBytes).params.size4Msb = .refuse := by decide

theorem witness_ValuePastPayloadRejects :
    addressable fourBytes < 4 + 1 ∧ addressable fourBytes < 3 + 2 ∧ addressable fourBytes < 1 + 4 := by decide

theorem witness_RenderingWritesTheValue : (-4294967295 : Int).natAbs < 10 ^ 20 := by decide

theorem witness_RenderingFitsTheBuffer :
    (-2147483648 : Int) ≤ -2147483648 ∧ (4294967295 : Int) < 4294967296 ∧ 7 ≤ 7 := by decide

theorem witness_FloatIsNearest :
    (-4294967295 : Int).natAbs < 2 ^ 32 ∧ 7 ≤ 7 ∧ floatExponent (0x7FEFFFFFFFFFFFFF : BitVec 64) < 2047 := by decide

theorem witness_ReportV1Completes :
    1 = (readByte reportOne 1).toNat % 32 ∧ 1 = (readByte reportOne 2).toNat % 8 ∧ 1 = (readByte reportOne 2).toNat / 32 ∧
    0 = (readByte reportOne 2).toNat / 8 % 4 ∧ reportOne.len.toNat = 4 + 1 ∧
    signedField reportOne.params (readBytes reportOne 3 1) = .ok 123 := by decide

/-- `01 E3 7C FF FF FF FE 00 01 7F FF FF FF`: type 3, rate 3, every bit of the scale, four bytes, a previous value. -/
def reportPast : State := payload [0x01, 0xE3, 0x7C, 0xFF, 0xFF, 0xFF, 0xFE, 0x00, 0x01, 0x7F, 0xFF, 0xFF, 0xFF]

theorem witness_ReportV2AndV3Complete :
    3 = (readByte reportPast 1).toNat % 32 ∧ 3 = (readByte reportPast 1).toNat / 32 % 4 ∧ 1 = (readByte reportPast 1).toNat / 128 ∧
    4 = (readByte reportPast 2).toNat % 8 ∧ 3 = (readByte reportPast 2).toNat / 32 ∧ 3 = (readByte reportPast 2).toNat / 8 % 4 ∧
    1 = (readByte reportPast (3 + 4)).toNat * 256 + (readByte reportPast (4 + 4)).toNat ∧
    reportPast.len.toNat = 6 + 4 + (if 1 = 0 then 0 else 4) ∧
    signedField reportPast.params (readBytes reportPast 3 4) = .ok (-2) ∧
    signedField reportPast.params (readBytes reportPast (5 + 4) 4) = .ok 2147483647 := by decide

theorem witness_ReportV2AndV3Complete_no_previous :
    1 = (readByte reportTwo 1).toNat % 32 ∧ 2 = (readByte reportTwo 2).toNat % 8 ∧
    0 = (readByte reportTwo (3 + 2)).toNat * 256 + (readByte reportTwo (4 + 2)).toNat ∧
    reportTwo.len.toNat = 6 + 2 + (if 0 = 0 then 0 else 2) ∧
    signedField reportTwo.params (readBytes reportTwo 3 2) = .ok 500 := by decide

theorem witness_ReportV4AndV5Complete_v4 :
    1 = (readByte reportFour 1).toNat % 32 ∧ 0 = (readByte reportFour 1).toNat / 32 % 4 ∧ 2 = (readByte reportFour 2).toNat % 8 ∧
    2 = (readByte reportFour 2).toNat / 32 ∧ 7 = (readByte reportFour 1).toNat / 128 * 4 + (readByte reportFour 2).toNat / 8 % 4 ∧
    10 = (readByte reportFour (3 + 2)).toNat * 256 + (readByte reportFour (4 + 2)).toNat ∧
    signedField reportFour.params (readBytes reportFour 3 2) = .ok 100 ∧
    signedField reportFour.params (readBytes reportFour (5 + 2) 2) = .ok 3 ∧
    3 = (readByte reportFour (reportFour.len.toNat - 2)).toNat ∧ regHas reportFour.params (((1 : Nat) - 1 : Int) * 16 + (11 : Nat)) = true ∧
    reportFour.len.toNat = 6 + 2 + (if 10 = 0 then 0 else 2) := by decide

/-- A scale-2 byte of 247, which a registry with the index 255 resolves. -/
def reportTop : State := { reportFive 247 with params := { Params.default with regMax := 320, regExtra := [255] } }

theorem witness_ReportV4AndV5Complete_v5 :
    1 = (readByte reportTop 1).toNat % 32 ∧ 0 = (readByte reportTop 1).toNat / 32 % 4 ∧ 2 = (readByte reportTop 2).toNat % 8 ∧
    2 = (readByte reportTop 2).toNat / 32 ∧ 7 = (readByte reportTop 1).toNat / 128 * 4 + (readByte reportTop 2).toNat / 8 % 4 ∧
    0 = (readByte reportTop (3 + 2)).toNat * 256 + (readByte reportTop (4 + 2)).toNat ∧
    signedField reportTop.params (readBytes reportTop 3 2) = .ok 100 ∧
    247 = (readByte reportTop (reportTop.len.toNat - 2)).toNat ∧ regHas reportTop.params (((1 : Nat) - 1 : Int) * 16 + (255 : Nat)) = true ∧
    reportTop.len.toNat = 6 + 2 + (if 0 = 0 then 0 else 2) + (if 7 = 7 then 1 else 0) := by decide

/-- Reports of every class that are done, with and without a previous value: ReportCursorEnds, ReportDoneHasExpectedLength,
ReportDoneIsResolved, ReportDoneFlags. -/
theorem witness_done_reports :
    (after? (exec (decodeReport .v1) reportOne)).map (fun t => (t.phase, t.pos)) = some (.done, 4) ∧
    (after? (exec (decodeReport .v2) reportTwo)).map (fun t => (t.phase, t.pos)) = some (.done, 7) ∧
    (after? (exec (decodeReport .v3) reportPast)).map (fun t => (t.phase, t.pos)) = some (.done, 13) ∧
    (after? (exec (decodeReport .v4) reportFour)).map (fun t => (t.phase, t.pos)) = some (.done, 9) ∧
    (after? (exec (decodeReport .v5) reportTop)).map (fun t => (t.phase, t.pos)) = some (.done, 7) := by decide

theorem witness_ReportHeaderFaults :
    addressable (payload [0x01, 0x01]) < 3 ∧ 3 ≤ addressable reportOne ∧ ¬ 1 ≤ (readByte (payload [0x01, 0x00, 0x00]) 1).toNat % 32 ∧
    3 < (readByte (payload [0x01, 0x04, 0x00]) 1).toNat % 32 ∧ 5 < (readByte (payload [0x01, 0x06, 0x00]) 1).toNat % 32 ∧
    (readByte (payload [0x01, 0x03, 0x03]) 1).toNat % 32 = 3 ∧ (readByte (payload [0x01, 0x03, 0x03]) 2).toNat % 8 ∉ [1, 2, 4] := by
  decide

theorem witness_ReportWrongLengthRejects :
    1 = (readByte reportFour 1).toNat % 32 ∧ 2 = (readByte reportFour 2).toNat % 8 ∧ 3 ≤ addressable reportFour ∧
    10 = (readByte reportFour (3 + 2)).toNat * 256 + (readByte reportFour (4 + 2)).toNat ∧
    7 = (readByte reportFour 1).toNat / 128 * 4 + (readByte reportFour 2).toNat / 8 % 4 ∧
    signedField reportFour.params (readBytes reportFour 3 2) = .ok 100 ∧
    signedField reportFour.params (readBytes reportFour (5 + 2) 2) = .ok 3 ∧
    reportFour.len.toNat ≠ 4 + 2 + (2 + 2) + 1 := by decide

/-- A version-1 report one byte too long, under `SIZE4_MSB = Refuse`: its 4-byte field has the top bit clear. -/
def reportLong : State := choosing .refuse (payload [0x01, 0x03, 0x04, 0x7F, 0x00, 0x00, 0x00, 0x00])

theorem witness_ReportWrongLengthRejects_refuse :
    reportLong.params.size4Msb = .refuse ∧ 3 = (readByte reportLong 1).toNat % 32 ∧ 4 = (readByte reportLong 2).toNat % 8 ∧
    3 + 4 ≤ addressable reportLong ∧ signedField reportLong.params (readBytes reportLong 3 4) = .ok 0x7F000000 ∧
    reportLong.len.toNat ≠ 4 + 4 ∧ ending (exec .reportV1 reportLong) = some (.rejected, 0x02) := by decide

/-- The previous-value form of version 4 with a scale-2 byte of the given value. -/
def reportScaleTwo (ext : Byte) : State := payload [0x01, 0x85, 0x59, 0x07, 0x00, 0x0A, ext]

theorem witness_ReportScaleTwoOutcomes :
    5 = (readByte (reportScaleTwo 248) 1).toNat % 32 ∧ 1 = (readByte (reportScaleTwo 248) 2).toNat % 8 ∧
    7 = (readByte (reportScaleTwo 248) 1).toNat / 128 * 4 + (readByte (reportScaleTwo 248) 2).toNat / 8 % 4 ∧
    10 = (readByte (reportScaleTwo 248) (3 + 1)).toNat * 256 + (readByte (reportScaleTwo 248) (4 + 1)).toNat ∧
    248 = (readByte (reportScaleTwo 248) ((reportScaleTwo 248).len.toNat - 2)).toNat ∧
    signedField (reportScaleTwo 248).params (readBytes (reportScaleTwo 248) 3 1) = .ok 7 ∧
    signedField (reportScaleTwo 248).params (readBytes (reportScaleTwo 248) (5 + 1) 1) = .ok (-8) ∧
    (reportScaleTwo 248).len.toNat = 6 + 1 + (if 10 = 0 then 0 else 1) ∧
    8 = (readByte (reportScaleTwo 8) ((reportScaleTwo 8).len.toNat - 2)).toNat ∧
    signedField (reportScaleTwo 8).params (readBytes (reportScaleTwo 8) (5 + 1) 1) = .ok 8 ∧
    regHas (reportScaleTwo 8).params (((5 : Nat) - 1 : Int) * 16 + ((8 : Nat) + 8)) = false := by decide

/-- What the two clauses of ReportRefusesTopBitField share. -/
abbrev refusingHeader (s : State) : Prop :=
  (readByte s 1).toNat % 32 = 3 ∧ (readByte s 2).toNat % 8 = 4 ∧ s.params.size4Msb = .refuse

/-- A primary field with its top bit set, and no more. -/
def refusedPrimary : State := choosing .refuse (payload [0x01, 0x03, 0x04, 0x80, 0x00, 0x00, 0x00])

/-- A previous value with its top bit set after a primary field with it clear. -/
def refusedPrevious : State :=
  choosing .refuse (payload [0x01, 0x03, 0x04, 0x7F, 0x00, 0x00, 0x00, 0x00, 0x01, 0x80, 0x00, 0x00, 0x00])

theorem witness_ReportRefusesTopBitField :
    refusingHeader refusedPrimary ∧ addressable refusedPrimary = 7 ∧ (readByte refusedPrimary 3).msb = true ∧
    refusingHeader refusedPrevious ∧ addressable refusedPrevious = 13 ∧ (readByte refusedPrevious 3).msb = false ∧
    (readByte refusedPrevious 7).toNat * 256 + (readByte refusedPrevious 8).toNat = 1 ∧
    (readByte refusedPrevious 9).msb = true ∧ refusal? (exec (decodeReport .v2) refusedPrevious) = some .size4Msb := by decide

theorem witness_VersionFourScaleTwoAlias :
    (after? (exec .reportV4 reportFour)).map (fun t => (t.phase, t.res.scale3, t.res.delta)) = some (.done, 7, 10) ∧
    (after? (exec .reportV4 (payload [0x01, 0x81, 0x5A, 0x00, 0x64, 0x00, 0x00]))).map
      (fun t => (t.phase, t.res.scale3, t.res.delta, t.res.scale)) = some (.done, 7, 0, 8) := by decide

theorem witness_NeighbouringVersionsAgree :
    (readByte reportTwo 1).msb = false ∧ (readByte reportThree 1).toNat / 128 * 4 + (readByte reportThree 2).toNat / 8 % 4 ≠ 7 := by
  decide

theorem witness_IgnoredHeaderBits :
    (0xE1 : Byte).toNat % 32 = (readByte reportOne 1).toNat % 32 ∧ (0xC1 : Byte).toNat % 128 = (readByte reportTwo 1).toNat % 128 := by
  decide

/-- A capability payload without an extension. -/
def capability (b1 b2 : Byte) : State := payload [0x01, b1, b2]

theorem witness_SupportedWithoutExtensionCompletes :
    (capability 0x85 0x7F).params.wf ∧ 3 ≤ addressable (capability 0x85 0x7F) ∧ 5 = (readByte (capability 0x85 0x7F) 1).toNat % 32 ∧
    127 = (readByte (capability 0x85 0x7F) 2).toNat ∧ 15 = (readByte (capability 0x85 0x7F) 2).toNat % 16 ∧
    0 = (readByte (capability 0x00 0xFF) 1).toNat % 32 ∧ 255 = (readByte (capability 0x00 0xFF) 2).toNat := by decide

theorem witness_SupportedWithExtensionCompletes :
    supportedFour.params.wf ∧ 5 = (readByte supportedFour 1).toNat % 32 ∧ (readByte supportedFour 2).msb = true ∧
    2 = (readByte supportedFour 3).toNat ∧ 2 ≤ (supportedFour.params.bitmapBits - supExtBit supportedFour.params) / 8 ∧
    4 + 2 ≤ addressable supportedFour := by decide

theorem witness_SupportedFaults :
    addressable (payload [0x01, 0x85]) < 3 ∧ 5 < (readByte (capability 0x06 0x00) 1).toNat % 32 ∧
    (readByte (capability 0x05 0x80) 2).msb = true ∧ addressable (capability 0x05 0x80) = 3 ∧
    maxExt Params.default < (readByte (payload [0x01, 0x05, 0x80, 0x04]) 3).toNat ∧
    (readByte (payload [0x01, 0x05, 0x80, 0x03, 0, 0]) 3).toNat ≤ maxExt Params.default ∧
    addressable (payload [0x01, 0x05, 0x80, 0x03, 0, 0]) < 4 + (readByte (payload [0x01, 0x05, 0x80, 0x03, 0, 0]) 3).toNat := by decide

theorem witness_SupportedSplitsByRegistry :
    supportedFour.params.wf ∧
    (after? (exec (decodeSupported .v4) supportedFour)).map (fun t => (t.phase, t.res.warn)) = some (.done, true) ∧
    (after? (exec (decodeSupported .v2) (capability 0x00 0xFF))).map (fun t => (t.phase, t.res.resmask)) = some (.done, 0) := by decide

theorem witness_PackScaleV4Completes : 7 ≤ 7 ∧ 8 ≤ 8 ∧ 263 ≤ 263 ∧ 263 < 264 := by decide

/-- The pairs of PackedScaleReadsBack: scale 255 in two bytes and version 5, scale 6 in one byte and version 3. -/
theorem witness_PackedScaleReadsBack :
    (after? (exec (.packScaleV4 255) State.reset)).map (fun t => t.res.packb.extractLsb' 8 8) =
      some (readByte reportTop (reportTop.len.toNat - 2)) ∧
    (after? (exec .reportV5 reportTop)).map (fun t => (t.phase, t.res.scale3)) = some (.done, 7) ∧
    (after? (exec (decodePackScale 6 .v3) State.reset)).map (fun t => (t.res.packb.extractLsb' 3 3).toNat) =
      some ((readByte reportThree 1).toNat / 128 * 4 + (readByte reportThree 2).toNat / 8 % 4) ∧
    (after? (exec (decodeReport .v3) reportThree)).map (fun t => t.phase) = some .done := by decide

end Sys2Proof.Machine
end

/-! The outcome of `START` is a function of the snapshot it samples (R33): each part of an evaluation gives the same
answer on two blocks whose inputs and addressable bytes agree. Only the cursor an operation keeps may differ, so the
statements about whole operations speak of `Eval.results`. -/

namespace Sys2Proof.Machine

/-! ## The snapshot, and what an outcome shows of an evaluation -/

/-- Two blocks that `START` cannot tell apart: the same command, length and parameters, and the same addressable
payload bytes (R33, R47). -/
structure SameSnapshot (s t : State) : Prop where
  command : commandOf s = commandOf t
  len : s.len = t.len
  params : s.params = t.params
  bytes : ∀ k, k < addressable s → readByte s k = readByte t k

theorem SameSnapshot.addressable_eq {s t : State} (h : SameSnapshot s t) : addressable s = addressable t := by
  simp only [addressable, h.len]

theorem SameSnapshot.readBytes_eq {s t : State} (h : SameSnapshot s t) {k n : Nat} (hn : k + n ≤ addressable s) :
    readBytes s k n = readBytes t k n :=
  readBytes_congr fun _ _ hi => h.bytes _ (Nat.lt_of_lt_of_le hi hn)

/-- An evaluation without the cursor it ends at: all that becomes visible of it (R37). -/
def Eval.results (e : Eval Completion) : Eval Results := e.bind fun c => .ok c.res

@[simp] theorem results_ok (c : Completion) : (Eval.ok c).results = .ok c.res := rfl

@[simp] theorem results_reject (k : ErrorKind) : (Eval.reject k : Eval Completion).results = .reject k := rfl

@[simp] theorem results_unspecified (r : Refusal) :
    (Eval.unspecified r : Eval Completion).results = .unspecified r := rfl

@[simp] theorem results_bind {α : Type} (e : Eval α) (f : α → Eval Completion) :
    (e.bind f).results = e.bind fun a => (f a).results := by
  cases e <;> rfl

/-- What the host sees of an operation that ends with the given results (R36, R167, R181). -/
def Eval.view : Eval Results → Host.Outcome (Phase × BitVec 8 × Results) Fault Refusal
  | .ok r => .next (.done, 0, r)
  | .reject k => .next (.rejected, reasonOf k, Results.zero)
  | .unspecified r => .refused r

/-- The end of an operation shows its results and nothing of the block it ran on. -/
theorem outcomeView_finishOperation (s : State) (e : Eval Completion) :
    outcomeView (finishOperation s e) = e.results.view := by
  cases e <;> rfl

/-! ## `REPORT` -/

theorem SameSnapshot.parseHeader_eq {s t : State} (h : SameSnapshot s t) (c : VClass) :
    parseHeader c s = parseHeader c t := by
  by_cases hn : addressable s < 3
  · have hn' : addressable t < 3 := h.addressable_eq ▸ hn
    simp only [parseHeader, if_pos hn, if_pos hn']
  · simp only [parseHeader, h.addressable_eq, h.params, h.bytes 1 (by omega), h.bytes 2 (by omega)]

theorem SameSnapshot.parseDelta_eq {s t : State} (h : SameSnapshot s t) (c : VClass) (raw : Int) (pos : Nat) :
    parseDelta c raw pos s = parseDelta c raw pos t := by
  by_cases hn : addressable s < pos + 2
  · simp only [parseDelta, ← h.addressable_eq, if_pos hn]
  · simp only [parseDelta, h.addressable_eq, h.readBytes_eq (Nat.le_of_not_lt hn)]

/-- The signed field under its guard (G2 and G4), the shape that both value fields of a report share. -/
theorem SameSnapshot.guarded_field_eq {s t : State} (h : SameSnapshot s t) {α : Type} (k n : Nat)
    {f g : Int → Eval α} (hfg : ∀ v, f v = g v) :
    (if addressable s < k + n then .reject .lengthMismatch else (signedField s.params (readBytes s k n)).bind f) =
      (if addressable t < k + n then .reject .lengthMismatch
        else (signedField t.params (readBytes t k n)).bind g) := by
  obtain rfl : f = g := funext hfg
  rw [← h.addressable_eq]
  split
  · rfl
  · next hn => rw [h.params, h.readBytes_eq (Nat.le_of_not_lt hn)]

theorem SameSnapshot.parseNumeric_eq {s t : State} (h : SameSnapshot s t) (c : VClass) (hd : ReportHeader) :
    parseNumeric c hd s = parseNumeric c hd t :=
  h.guarded_field_eq 3 hd.size fun raw => h.parseDelta_eq c raw (3 + hd.size)

theorem SameSnapshot.parsePrevious_eq {s t : State} (h : SameSnapshot s t) (hd : ReportHeader) (m : ReportNumeric) :
    parsePrevious hd m s = parsePrevious hd m t := by
  unfold parsePrevious
  rw [h.guarded_field_eq m.pos hd.size fun _ => rfl]

/-- The scale-2 byte is the last addressable one, so it is in the snapshot once the payload has a byte (R119). -/
theorem SameSnapshot.resolveScale_eq {s t : State} (h : SameSnapshot s t) (c : VClass) (scale3 : Nat)
    (hn : 0 < addressable s) : resolveScale c scale3 s = resolveScale c scale3 t := by
  simp only [resolveScale, ← h.addressable_eq, h.bytes (addressable s - 1) (by omega)]

/-- A report of the expected length has an addressable byte: the length figure is at least 4 (R74). -/
theorem addressable_pos_of_expectedLength {s : State} {c : VClass} {size delta scale3 : Nat}
    (h : s.len.toNat = expectedLength c size delta scale3) : 0 < addressable s := by
  unfold expectedLength at h
  unfold addressable
  split <;> omega

theorem SameSnapshot.validateReport_eq {s t : State} (h : SameSnapshot s t) (c : VClass) (hd : ReportHeader)
    (m : ReportNumeric) : validateReport c hd m s = validateReport c hd m t := by
  unfold validateReport
  rw [← h.len]
  split
  · rfl
  · next hl =>
    rw [h.resolveScale_eq c hd.scale3 (addressable_pos_of_expectedLength (not_not.1 hl)), h.params]

theorem SameSnapshot.evalReport_eq {s t : State} (h : SameSnapshot s t) (c : VClass) :
    evalReport c s = evalReport c t := by
  simp only [evalReport, h.parseHeader_eq, h.parseNumeric_eq, h.parsePrevious_eq, h.validateReport_eq]

/-! ## `SUPPORTED` -/

theorem SameSnapshot.orExtension_eq {s t : State} (h : SameSnapshot s t) (n j mask : Nat)
    (hn : 4 + (j + n) ≤ addressable s) : orExtension s j n mask = orExtension t j n mask := by
  induction n generalizing j mask with
  | zero => rfl
  | succ n ih =>
    simp only [orExtension]
    rw [h.bytes (4 + j) (by omega), h.params, ih (j + 1) _ (by omega)]

theorem SameSnapshot.extendBitmap_eq {s t : State} (h : SameSnapshot s t) (mask : Nat) :
    extendBitmap mask s = extendBitmap mask t := by
  unfold extendBitmap
  rw [← h.addressable_eq, ← h.params]
  split
  · rfl
  · next hn =>
    rw [← h.bytes 3 (by omega)]
    split
    · rfl
    · split
      · rfl
      · next hm => rw [h.orExtension_eq _ _ _ (by omega)]

theorem SameSnapshot.composeBitmap_eq {s t : State} (h : SameSnapshot s t) (c : VClass) (hn : 3 ≤ addressable s) :
    composeBitmap c s = composeBitmap c t := by
  simp only [composeBitmap, h.bytes 2 (by omega), h.extendBitmap_eq]

theorem SameSnapshot.evalSupported_results {s t : State} (h : SameSnapshot s t) (c : VClass) :
    (evalSupported c s).results = (evalSupported c t).results := by
  unfold evalSupported
  rw [← h.addressable_eq]
  split
  · rfl
  · next hn =>
    rw [h.bytes 1 (by omega), h.composeBitmap_eq c (by omega), h.params]
    split
    · rfl
    · simp only [results_bind, results_ok]

/-! ## `VALUE` and `PACKSCALE` -/

theorem SameSnapshot.evalValue_results {s t : State} (h : SameSnapshot s t) (size prec off : Nat) :
    (evalValue size prec off s).results = (evalValue size prec off t).results := by
  unfold evalValue
  rw [← h.addressable_eq]
  split
  · next hn => simp only [h.params, h.readBytes_eq hn, results_bind, results_ok]
  · rfl

theorem packDone_results (s : State) (n b0 b1 : Nat) : (packDone s n b0 b1).results = .ok (packResults n b0 b1) := rfl

theorem SameSnapshot.evalPackScaleV4_results {s t : State} (h : SameSnapshot s t) (scale : Nat) :
    (evalPackScaleV4 scale s).results = (evalPackScaleV4 scale t).results := by
  unfold evalPackScaleV4
  rw [h.params]
  split
  · simp only [packDone_results]
  · split
    · simp only [packDone_results]
    · rfl

/-! ## The `START` strobe -/

/-- Every operation of the table gives the same results on the same snapshot. -/
theorem SameSnapshot.evalOf_results {s t : State} (h : SameSnapshot s t) (i : Instr) :
    (evalOf i s).results = (evalOf i t).results := by
  cases i with
  | reportV1 => exact congrArg Eval.results (h.evalReport_eq .v1)
  | reportV2 => exact congrArg Eval.results (h.evalReport_eq .v2)
  | reportV3 => exact congrArg Eval.results (h.evalReport_eq .v3)
  | reportV4 => exact congrArg Eval.results (h.evalReport_eq .v4)
  | reportV5 => exact congrArg Eval.results (h.evalReport_eq .v5)
  | supportedV1 => rfl
  | supportedV2 => exact h.evalSupported_results .v2
  | supportedV3 => exact h.evalSupported_results .v3
  | supportedV4 => exact h.evalSupported_results .v4
  | valueS1 prec off => exact h.evalValue_results 1 prec off
  | valueS2 prec off => exact h.evalValue_results 2 prec off
  | valueS4 prec off => exact h.evalValue_results 4 prec off
  | packScaleV1 scale => rfl
  | packScaleV2 scale => rfl
  | packScaleV3 scale => rfl
  | packScaleV4 scale => exact h.evalPackScaleV4_results scale

/-- An operation shows the same outcome on the same snapshot. -/
theorem SameSnapshot.outcomeView_exec {s t : State} (h : SameSnapshot s t) (i : Instr) :
    outcomeView (exec i s) = outcomeView (exec i t) := by
  simp only [exec_eq_finish, outcomeView_finishOperation, h.evalOf_results i]

/-- So does the strobe, whether the command names an operation or not. -/
theorem SameSnapshot.outcomeView_startOperation {s t : State} (h : SameSnapshot s t) :
    outcomeView (startOperation s) = outcomeView (startOperation t) := by
  unfold startOperation
  rw [← h.command]
  split
  · exact h.outcomeView_exec _
  · rfl
  · rfl
  · rfl

/-- Settles O21: the hypotheses say that the two blocks hold the same snapshot, and each operation reads a byte only
under a guard that puts it below `N`. -/
theorem outcomeDependsOnSnapshotAlone : Obligations.OutcomeDependsOnSnapshotAlone := by
  intro s t hop hversion hlen harg hparams hbytes
  have hcommand : commandOf s = commandOf t := by simp only [commandOf, hop, hversion, harg]
  exact SameSnapshot.outcomeView_startOperation ⟨hcommand, hlen, hparams, hbytes⟩

end Sys2Proof.Machine

/-! R54 (c) leaves the registry's answers between 80 and `REG_MAX` free: any choice of them is a well-formed parameter, and
the choice of none is the default. -/

namespace Sys2Proof.Machine

/-- Between 80 and `REG_MAX` the registry holds what the parameter lists (R54 (c)). -/
theorem regHas_between (p : Params) {f : Nat} (h80 : 80 ≤ f) (hmax : f < p.regMax) :
    regHas p f = p.regExtra.contains f := by
  have hlow : ¬ (f : Int) < 80 := by omega
  simp [regHas, hlow, hmax]

/-- The indices from 80 up to `m` that `g` answers, rising. -/
def indicesAnswered (m : Nat) (g : Nat → Bool) : List Nat := (List.range' 80 (m - 80)).filter g

theorem mem_indicesAnswered {m f : Nat} {g : Nat → Bool} (hm : 80 ≤ m) :
    f ∈ indicesAnswered m g ↔ (80 ≤ f ∧ f < m) ∧ g f = true := by
  simp [indicesAnswered, List.mem_range'_1, Nat.add_sub_cancel' hm]

theorem indicesAnswered_pairwise_lt (m : Nat) (g : Nat → Bool) : (indicesAnswered m g).Pairwise (· < ·) :=
  List.Pairwise.filter g List.pairwise_lt_range'

/-- The default parameters with `REG_MAX = m` and the registry that answers `g` between 80 and `m`. -/
def paramsAnswering (m : Nat) (g : Nat → Bool) : Params :=
  { Params.default with regMax := m, regExtra := indicesAnswered m g }

theorem paramsAnswering_wf {m : Nat} (g : Nat → Bool) (hm : 80 ≤ m) : (paramsAnswering m g).wf :=
  ⟨show 8 ≤ Params.default.bitmapBits by decide, hm, indicesAnswered_pairwise_lt m g, fun _ hf => ((mem_indicesAnswered hm).1 hf).1⟩

theorem regHas_paramsAnswering {m f : Nat} (g : Nat → Bool) (h80 : 80 ≤ f) (hmax : f < m) :
    regHas (paramsAnswering m g) f = g f := by
  have hmem : f ∈ indicesAnswered m g ↔ g f = true := by simp [mem_indicesAnswered (h80.trans hmax.le), h80, hmax]
  rw [regHas_between _ h80 hmax, Bool.eq_iff_iff, List.contains_iff_mem]
  exact hmem

/-- The registry of the defaults is `REG_MIN`: the 80 indices of R54 (a) and no other. -/
theorem regHas_default (f : Int) : regHas Params.default f = decide (0 ≤ f ∧ f < 80) := by
  have hwf : Params.default.wf := by decide
  rcases lt_or_ge f 0 with hneg | h0
  · rw [regHas_negative _ hneg, eq_comm, decide_eq_false_iff_not]
    omega
  rcases lt_or_ge f 80 with hlow | hhigh
  · rw [regHas_low _ h0 hlow, eq_comm, decide_eq_true_iff]
    exact ⟨h0, hlow⟩
  · rw [regHas_high hwf hhigh, eq_comm, decide_eq_false_iff_not]
    omega

/-- Settles O18: R54's freedom between 80 and `REG_MAX` is shown by the parameters that list exactly the indices a given
predicate answers. -/
theorem registryConstraints : Obligations.RegistryConstraints :=
  ⟨fun p _ hp => ⟨regHas_low p, regHas_negative p, regHas_high hp⟩,
    fun m g hm => ⟨paramsAnswering m g, paramsAnswering_wf g hm, rfl, fun _ => regHas_paramsAnswering g⟩,
    rfl, regHas_default⟩

end Sys2Proof.Machine

/-! The command registers name an operation by three fields of three bits, and a row of the table constrains each field on
its own (R69, R91): the class for `REPORT`, `SUPPORTED` and `PACKSCALE`, the element size for `VALUE`. -/

namespace Sys2Proof.Machine

/-! ## The version class (R68) -/

theorem vclassOf_of_five_le {v : BitVec 8} (h : 5 ≤ v.toNat) : vclassOf v = some .v5 := by
  unfold vclassOf
  split
  case h_6 => rfl
  all_goals omega

theorem vclassNum_eq_min (v : BitVec 8) : vclassNum v = min v.toNat 5 := by
  rcases lt_or_ge v.toNat 5 with h | h
  · interval_cases hv : v.toNat <;> simp [vclassNum, vclassOf, hv, VClass.num]
  · simp [vclassNum, vclassOf_of_five_le h, VClass.num, h]

theorem vclassNum_lt (v : BitVec 8) : vclassNum v < 8 := by
  rw [vclassNum_eq_min]
  omega

/-- The decoder sees the version only through its class. -/
theorem decode_congr_version {c : Command} {v : BitVec 8} (h : vclassOf c.version = vclassOf v) :
    decode c = decode { c with version := v } := by
  simp only [decode, decodeVersioned, h]

/-- Settles O5: the decoder sees the version's class only, which is 5 from 5 up. -/
theorem versionsAboveFiveFold : Obligations.VersionsAboveFiveFold := fun c =>
  ⟨vclassNum_eq_min c.version, fun h =>
    decode_congr_version ((vclassOf_of_five_le h).trans (vclassOf_of_five_le (v := 5) (by decide)).symm)⟩

/-! ## The selector's three fields (R69) -/

theorem append_eq_append_iff {m n : Nat} {x x' : BitVec m} {y y' : BitVec n} :
    x ++ y = x' ++ y' ↔ x = x' ∧ y = y' := by
  refine ⟨fun h => ⟨?_, ?_⟩, fun ⟨hx, hy⟩ => hx ▸ hy ▸ rfl⟩
  · simpa [BitVec.extractLsb'_append_eq_left] using congrArg (BitVec.extractLsb' n m) h
  · simpa [BitVec.extractLsb'_append_eq_right] using congrArg (BitVec.extractLsb' 0 n) h

/-- `ARG[2:0]` is the same number as a slice and as the model's field. -/
theorem toNat_sizeBits (arg : BitVec 16) : (arg.extractLsb' 0 3).toNat = argSize arg := rfl

theorem selector_eq_append (c : Command) :
    selector c = c.op ++ BitVec.ofNat 3 (vclassNum c.version) ++ c.arg.extractLsb' 0 3 := by
  have hop := c.op.isLt
  have hclass := vclassNum_lt c.version
  have hsize : argSize c.arg < 2 ^ 3 := bitsOf_lt _ _ _
  apply BitVec.eq_of_toNat_eq
  rw [BitVec.toNat_append, BitVec.toNat_append, toNat_sizeBits, ← Nat.shiftLeft_add_eq_or_of_lt hsize,
    ← Nat.shiftLeft_add_eq_or_of_lt (BitVec.isLt _)]
  simp only [selector, BitVec.toNat_ofNat, Nat.shiftLeft_eq]
  omega

/-- A mask of three ones keeps its field whole. -/
theorem and_seven (x : BitVec 3) : x &&& 7#3 = x := BitVec.and_allOnes

/-- The selector meets a row's mask and match (R69). -/
def SelectorMeets (c : Command) (i : Instr) : Prop := selector c &&& rowMask i = rowMatch i

/-- A row given by its three fields is met field by field. -/
theorem selectorMeets_iff_fields {c : Command} {i : Instr} {m₁ m₂ m₃ r₁ r₂ r₃ : BitVec 3}
    (hmask : rowMask i = m₁ ++ m₂ ++ m₃) (hmatch : rowMatch i = r₁ ++ r₂ ++ r₃) :
    SelectorMeets c i ↔ c.op &&& m₁ = r₁ ∧ BitVec.ofNat 3 (vclassNum c.version) &&& m₂ = r₂ ∧
      c.arg.extractLsb' 0 3 &&& m₃ = r₃ := by
  rw [SelectorMeets, selector_eq_append, hmask, hmatch, BitVec.and_append, BitVec.and_append, append_eq_append_iff,
    append_eq_append_iff, and_assoc]

/-! ## The version-dependent families -/

theorem decodeVersioned_eq_ok {v : BitVec 8} {row : VClass → Instr} {i : Instr} :
    decodeVersioned v row = .ok i ↔ ∃ k, vclassOf v = some k ∧ row k = i := by
  unfold decodeVersioned
  cases vclassOf v <;> simp

/-- The rows `row` of a version-dependent operation `op`: each is met by `OP`, by the class bits that its mask keeps, and
by any `ARG`. No row is met by class 0, and two classes that meet one row share it (R91). -/
structure VersionedRows (op : BitVec 3) (row : VClass → Instr) (kept : VClass → BitVec 3) : Prop where
  mask_eq : ∀ k, rowMask (row k) = 7#3 ++ kept k ++ 0#3
  match_eq : ∀ k, rowMatch (row k) = op ++ (BitVec.ofNat 3 k.num &&& kept k) ++ 0#3
  classZero : ∀ k, 0#3 ≠ BitVec.ofNat 3 k.num &&& kept k
  sameRow : ∀ k k', BitVec.ofNat 3 k'.num &&& kept k = BitVec.ofNat 3 k.num &&& kept k ↔ row k' = row k

/-- The class bits a row keeps when classes 4 and 5 share one. -/
def sharedClassBits : VClass → BitVec 3
  | .v4 | .v5 => 6
  | _ => 7

theorem reportRows : VersionedRows 1 decodeReport fun _ => 7 where
  mask_eq k := by cases k <;> rfl
  match_eq k := by cases k <;> rfl
  classZero k := by cases k <;> decide
  sameRow k k' := by cases k <;> cases k' <;> decide

theorem supportedRows : VersionedRows 2 decodeSupported sharedClassBits where
  mask_eq k := by cases k <;> rfl
  match_eq k := by cases k <;> rfl
  classZero k := by cases k <;> decide
  sameRow k k' := by cases k <;> cases k' <;> decide

/-- `PACKSCALE` folds its classes as `SUPPORTED` does. -/
theorem decodePackScale_eq_iff (scale : Nat) (k k' : VClass) :
    decodePackScale scale k' = decodePackScale scale k ↔ decodeSupported k' = decodeSupported k := by
  cases k <;> cases k' <;> simp [decodePackScale, decodeSupported]

theorem packScaleRows (scale : Nat) : VersionedRows 4 (decodePackScale scale) sharedClassBits where
  mask_eq k := by cases k <;> rfl
  match_eq k := by cases k <;> rfl
  classZero := supportedRows.classZero
  sameRow k k' := (supportedRows.sameRow k k').trans (decodePackScale_eq_iff scale k k').symm

theorem VersionedRows.classBits_iff {op : BitVec 3} {row : VClass → Instr} {kept : VClass → BitVec 3}
    (h : VersionedRows op row kept) (v : BitVec 8) (k : VClass) :
    BitVec.ofNat 3 (vclassNum v) &&& kept k = BitVec.ofNat 3 k.num &&& kept k ↔ decodeVersioned v row = .ok (row k) := by
  unfold vclassNum decodeVersioned
  cases vclassOf v with
  | none => simpa using h.classZero k
  | some k' => simpa using h.sameRow k k'

/-- The selector meets a row exactly when `OP` is the operation's and the version decodes to that row. -/
theorem VersionedRows.selectorMeets_iff {op : BitVec 3} {row : VClass → Instr} {kept : VClass → BitVec 3}
    (h : VersionedRows op row kept) (c : Command) (k : VClass) :
    SelectorMeets c (row k) ↔ c.op = op ∧ decodeVersioned c.version row = .ok (row k) := by
  rw [selectorMeets_iff_fields (h.mask_eq k) (h.match_eq k), and_seven, h.classBits_iff]
  simp

/-! ## `VALUE` -/

theorem sizeBits_eq_iff (arg : BitVec 16) {n : Nat} (hn : n < 8) :
    arg.extractLsb' 0 3 = BitVec.ofNat 3 n ↔ argSize arg = n := by
  rw [← BitVec.toNat_inj, toNat_sizeBits, BitVec.toNat_ofNat, Nat.mod_eq_of_lt hn]

/-- A row of `VALUE` fixes `OP` and the element size; the class plays no part. -/
theorem selectorMeets_value {c : Command} {i : Instr} {n : Nat} (hn : n < 8) (hmask : rowMask i = 7#3 ++ 0#3 ++ 7#3)
    (hmatch : rowMatch i = 3#3 ++ 0#3 ++ BitVec.ofNat 3 n) : SelectorMeets c i ↔ c.op = 3 ∧ argSize c.arg = n := by
  rw [selectorMeets_iff_fields hmask hmatch, and_seven, and_seven, sizeBits_eq_iff _ hn]
  simp

theorem selectorMeets_valueS1 (c : Command) (prec off : Nat) :
    SelectorMeets c (.valueS1 prec off) ↔ c.op = 3 ∧ argSize c.arg = 1 := selectorMeets_value (by decide) rfl rfl

theorem selectorMeets_valueS2 (c : Command) (prec off : Nat) :
    SelectorMeets c (.valueS2 prec off) ↔ c.op = 3 ∧ argSize c.arg = 2 := selectorMeets_value (by decide) rfl rfl

theorem selectorMeets_valueS4 (c : Command) (prec off : Nat) :
    SelectorMeets c (.valueS4 prec off) ↔ c.op = 3 ∧ argSize c.arg = 4 := selectorMeets_value (by decide) rfl rfl

theorem decodeValue_eq_ok {arg : BitVec 16} {i : Instr} :
    decodeValue arg = .ok i ↔
      (argSize arg = 1 ∧ .valueS1 (argPrec arg) (argOff arg) = i) ∨
      (argSize arg = 2 ∧ .valueS2 (argPrec arg) (argOff arg) = i) ∨
      (argSize arg = 4 ∧ .valueS4 (argPrec arg) (argOff arg) = i) := by
  unfold decodeValue
  split <;> simp_all

/-! ## The decoder and the table -/

/-- What the decoder accepts: a row of the operation that `OP` names (R67, R91). -/
theorem decode_eq_ok {c : Command} {i : Instr} :
    decode c = .ok i ↔
      (c.op = 1 ∧ decodeVersioned c.version decodeReport = .ok i) ∨
      (c.op = 2 ∧ decodeVersioned c.version decodeSupported = .ok i) ∨
      (c.op = 3 ∧ decodeValue c.arg = .ok i) ∨
      (c.op = 4 ∧ decodeVersioned c.version (decodePackScale (argScale c.arg)) = .ok i) := by
  unfold decode
  simp only [← BitVec.toNat_inj]
  split <;> simp_all

/-- Every operation is a row of one of the four families. -/
theorem instr_families (i : Instr) :
    (∃ k, i = decodeReport k) ∨ (∃ k, i = decodeSupported k) ∨ (∃ scale k, i = decodePackScale scale k) ∨
      ∃ prec off, i = .valueS1 prec off ∨ i = .valueS2 prec off ∨ i = .valueS4 prec off := by
  cases i with
  | reportV1 => exact .inl ⟨.v1, rfl⟩
  | reportV2 => exact .inl ⟨.v2, rfl⟩
  | reportV3 => exact .inl ⟨.v3, rfl⟩
  | reportV4 => exact .inl ⟨.v4, rfl⟩
  | reportV5 => exact .inl ⟨.v5, rfl⟩
  | supportedV1 => exact .inr (.inl ⟨.v1, rfl⟩)
  | supportedV2 => exact .inr (.inl ⟨.v2, rfl⟩)
  | supportedV3 => exact .inr (.inl ⟨.v3, rfl⟩)
  | supportedV4 => exact .inr (.inl ⟨.v4, rfl⟩)
  | packScaleV1 scale => exact .inr (.inr (.inl ⟨scale, .v1, rfl⟩))
  | packScaleV2 scale => exact .inr (.inr (.inl ⟨scale, .v2, rfl⟩))
  | packScaleV3 scale => exact .inr (.inr (.inl ⟨scale, .v3, rfl⟩))
  | packScaleV4 scale => exact .inr (.inr (.inl ⟨scale, .v4, rfl⟩))
  | valueS1 prec off => exact .inr (.inr (.inr ⟨prec, off, .inl rfl⟩))
  | valueS2 prec off => exact .inr (.inr (.inr ⟨prec, off, .inr (.inl rfl)⟩))
  | valueS4 prec off => exact .inr (.inr (.inr ⟨prec, off, .inr (.inr rfl)⟩))

/-- Two operations of one row of the table: they differ in operands only. -/
def SameRow (j i : Instr) : Prop := rowMask j = rowMask i ∧ rowMatch j = rowMatch i

theorem SameRow.refl (i : Instr) : SameRow i i := ⟨rfl, rfl⟩

theorem SameRow.selectorMeets_iff {j i : Instr} (h : SameRow j i) (c : Command) :
    SelectorMeets c j ↔ SelectorMeets c i := by
  obtain ⟨hmask, hmatch⟩ := h
  rw [SelectorMeets, SelectorMeets, hmask, hmatch]

theorem sameRow_decodePackScale (scale scale' : Nat) (k : VClass) :
    SameRow (decodePackScale scale k) (decodePackScale scale' k) := by
  cases k <;> exact ⟨rfl, rfl⟩

/-- The selector meets the row that the command decodes to. -/
theorem selectorMeets_of_decode {c : Command} {i : Instr} (h : decode c = .ok i) : SelectorMeets c i := by
  rcases decode_eq_ok.1 h with ⟨hop, hrow⟩ | ⟨hop, hrow⟩ | ⟨hop, hrow⟩ | ⟨hop, hrow⟩
  · obtain ⟨k, -, rfl⟩ := decodeVersioned_eq_ok.1 hrow
    exact (reportRows.selectorMeets_iff c k).2 ⟨hop, hrow⟩
  · obtain ⟨k, -, rfl⟩ := decodeVersioned_eq_ok.1 hrow
    exact (supportedRows.selectorMeets_iff c k).2 ⟨hop, hrow⟩
  · rcases decodeValue_eq_ok.1 hrow with ⟨hsize, rfl⟩ | ⟨hsize, rfl⟩ | ⟨hsize, rfl⟩
    · exact (selectorMeets_valueS1 c _ _).2 ⟨hop, hsize⟩
    · exact (selectorMeets_valueS2 c _ _).2 ⟨hop, hsize⟩
    · exact (selectorMeets_valueS4 c _ _).2 ⟨hop, hsize⟩
  · obtain ⟨k, -, rfl⟩ := decodeVersioned_eq_ok.1 hrow
    exact ((packScaleRows _).selectorMeets_iff c k).2 ⟨hop, hrow⟩

/-- A command whose selector meets a row decodes to an operation of that row; its operands are those of `ARG`. -/
theorem decode_of_selectorMeets {c : Command} {i : Instr} (h : SelectorMeets c i) :
    ∃ j, decode c = .ok j ∧ SameRow j i := by
  rcases instr_families i with ⟨k, rfl⟩ | ⟨k, rfl⟩ | ⟨scale, k, rfl⟩ | ⟨prec, off, rfl | rfl | rfl⟩
  · exact ⟨_, decode_eq_ok.2 (.inl ((reportRows.selectorMeets_iff c k).1 h)), .refl _⟩
  · exact ⟨_, decode_eq_ok.2 (.inr (.inl ((supportedRows.selectorMeets_iff c k).1 h))), .refl _⟩
  · have hrow := sameRow_decodePackScale (argScale c.arg) scale k
    have hmeets := ((packScaleRows _).selectorMeets_iff c k).1 ((hrow.selectorMeets_iff c).2 h)
    exact ⟨_, decode_eq_ok.2 (.inr (.inr (.inr hmeets))), hrow⟩
  · obtain ⟨hop, hsize⟩ := (selectorMeets_valueS1 c prec off).1 h
    exact ⟨_, decode_eq_ok.2 (.inr (.inr (.inl ⟨hop, decodeValue_eq_ok.2 (.inl ⟨hsize, rfl⟩)⟩))), rfl, rfl⟩
  · obtain ⟨hop, hsize⟩ := (selectorMeets_valueS2 c prec off).1 h
    exact ⟨_, decode_eq_ok.2 (.inr (.inr (.inl ⟨hop, decodeValue_eq_ok.2 (.inr (.inl ⟨hsize, rfl⟩))⟩))), rfl, rfl⟩
  · obtain ⟨hop, hsize⟩ := (selectorMeets_valueS4 c prec off).1 h
    exact ⟨_, decode_eq_ok.2 (.inr (.inr (.inl ⟨hop, decodeValue_eq_ok.2 (.inr (.inr ⟨hsize, rfl⟩))⟩))), rfl, rfl⟩

/-- Settles O2: a row is met field by field, and the decoder reads the same fields. -/
theorem rowAppliesIffSelectorMatches : Obligations.RowAppliesIffSelectorMatches := by
  refine fun c i => ⟨selector_eq_append c, ?_, decode_of_selectorMeets⟩
  rintro ⟨j, hdecode, hrow⟩
  exact (SameRow.selectorMeets_iff hrow c).1 (selectorMeets_of_decode hdecode)

end Sys2Proof.Machine

/-! A numeric field is one machine word: the big-endian value of its bytes is the word's number and the top bit of its first
byte is the word's (R50). The signed field and `VALUE` are then arithmetic on that word (R97 to R102). -/

namespace Sys2Proof.Machine

/-! ## A field as one word -/

/-- The bytes `bs`, first byte first, are the word `w` (R50). -/
structure FieldWord (bs : List Byte) {n : Nat} (w : BitVec n) : Prop where
  width : n = 8 * bs.length
  value : beValue bs = w.toNat
  top : topBit bs = w.msb

theorem beValue_concat (bs : List Byte) (b : Byte) : beValue (bs ++ [b]) = beValue bs * 256 + b.toNat := by
  simp [beValue]

theorem topBit_append {bs : List Byte} (h : bs ≠ []) (cs : List Byte) : topBit (bs ++ cs) = topBit bs := by
  cases bs with
  | nil => exact absurd rfl h
  | cons b bs => rfl

theorem toNat_append_byte {n : Nat} (w : BitVec n) (b : Byte) : (w ++ b).toNat = w.toNat * 256 + b.toNat := by
  rw [BitVec.toNat_append, ← Nat.shiftLeft_add_eq_or_of_lt b.isLt, Nat.shiftLeft_eq]

theorem FieldWord.one (b : Byte) : FieldWord [b] b where
  width := rfl
  value := by simp [beValue]
  top := testBit_seven_eq_msb b

/-- One more byte extends the word at its low end. -/
theorem FieldWord.concat {bs : List Byte} {n : Nat} {w : BitVec n} (h : FieldWord bs w) (hn : n ≠ 0) (b : Byte) :
    FieldWord (bs ++ [b]) (w ++ b) where
  width := by rw [h.width, List.length_append, Nat.mul_add]; rfl
  value := by rw [beValue_concat, toNat_append_byte, h.value]
  top := by
    have hbs : bs ≠ [] := by
      rintro rfl
      exact hn h.width
    rw [topBit_append hbs, h.top, BitVec.msb_append, if_neg (by simpa using hn)]

theorem FieldWord.two (b c : Byte) : FieldWord [b, c] (b ++ c : BitVec 16) := (FieldWord.one b).concat (by decide) c

theorem FieldWord.four (b c d e : Byte) : FieldWord [b, c, d, e] (b ++ c ++ d ++ e : BitVec 32) :=
  ((FieldWord.two b c).concat (by decide) d).concat (by decide) e

theorem msb_append_four (b c d e : Byte) : (b ++ c ++ d ++ e : BitVec 32).msb = b.msb :=
  (FieldWord.four b c d e).top.symm.trans (FieldWord.one b).top

/-! ## The signed value of a field (R98, R101) -/

/-- With the top bit clear the value is the unsigned one, whatever the size and `SIZE4_MSB`. -/
theorem FieldWord.signedField_of_msb_false {bs : List Byte} {n : Nat} {w : BitVec n} (h : FieldWord bs w)
    (hw : w.msb = false) (p : Params) : signedField p bs = .ok (w.toNat : Int) := by
  simp [signedField, h.top, hw, h.value]

theorem FieldWord.signedField_of_positive {bs : List Byte} {w : BitVec 32} (h : FieldWord bs w) {p : Params}
    (hp : p.size4Msb = .positive) : signedField p bs = .ok (w.toNat : Int) := by
  have hlen : bs.length = 4 := by have := h.width; omega
  simp [signedField, hlen, hp, h.value]

theorem FieldWord.signedField_of_refuse {bs : List Byte} {w : BitVec 32} (h : FieldWord bs w) (hw : w.msb = true)
    {p : Params} (hp : p.size4Msb = .refuse) : signedField p bs = .unspecified .size4Msb := by
  have hlen : bs.length = 4 := by have := h.width; omega
  simp [signedField, h.top, hw, hlen, hp]

/-- The value is two's complement of the field's width, unless `SIZE4_MSB` says otherwise of the top bit of four bytes. -/
theorem FieldWord.signedField_eq_toInt {bs : List Byte} {n : Nat} {w : BitVec n} (h : FieldWord bs w) {p : Params}
    (hp : w.msb = false ∨ bs.length ≠ 4 ∨ p.size4Msb = .negative) : signedField p bs = .ok w.toInt := by
  cases hw : w.msb with
  | false => rw [h.signedField_of_msb_false hw, BitVec.toInt_eq_toNat_of_msb hw]
  | true =>
    have hneg : w.toInt = (beValue bs : Int) - 2 ^ (8 * bs.length) := by
      rw [BitVec.toInt_eq_msb_cond, if_pos hw, h.value, ← h.width]
      norm_cast
    rw [hneg]
    by_cases hlen : bs.length = 4
    · have hp : p.size4Msb = .negative := by simpa [hw, hlen] using hp
      simp [signedField, h.top, hw, hlen, hp]
    · simp [signedField, h.top, hw, hlen]

/-- Settles O25: each field is one word, and the four-byte clauses are the choices of `SIZE4_MSB` on its top bit. -/
theorem signedFieldValue : Obligations.SignedFieldValue := by
  refine ⟨fun p b => (FieldWord.one b).signedField_eq_toInt (.inr (.inl (by simp))),
    fun p b c => (FieldWord.two b c).signedField_eq_toInt (.inr (.inl (by simp))), fun p b c d e => ?_, rfl⟩
  have hfield := FieldWord.four b c d e
  rw [← msb_append_four b c d e]
  exact ⟨fun hw => hfield.signedField_of_msb_false hw p, fun _ hp => hfield.signedField_eq_toInt (.inr (.inr hp)),
    fun _ hp => hfield.signedField_of_positive hp, fun hw hp => hfield.signedField_of_refuse hw hp⟩

/-! ## `VALUE` (R97) -/

/-- `VALUE` on addressable bytes whose field has the value `raw`: it writes its outputs and changes nothing else. -/
theorem finish_evalValue_of_ok {s : State} {size prec off : Nat} {raw : Int} {reg : BitVec 64}
    (hfits : off + size ≤ addressable s) (hraw : signedField s.params (readBytes s off size) = .ok raw)
    (hreg : BitVec.ofInt 64 raw = reg) :
    finishOperation s (evalValue size prec off s) = .next { s with
      phase := .done, reason := 0,
      res := { Results.zero with
        size := BitVec.ofNat 3 size, prec := BitVec.ofNat 3 prec, raw := reg,
        t0 := render raw prec, f0 := toFloat raw prec } } := by
  rw [evalValue, if_pos hfits, hraw, ← hreg]
  rfl

theorem finish_evalValue_of_unspecified {s : State} {size prec off : Nat} {r : Refusal}
    (hfits : off + size ≤ addressable s) (hraw : signedField s.params (readBytes s off size) = .unspecified r) :
    finishOperation s (evalValue size prec off s) = .refused r := by
  rw [evalValue, if_pos hfits, hraw]
  rfl

/-- A two's complement value stands in `RAW` sign-extended. -/
theorem ofInt_toInt_eq_signExtend {n : Nat} (w : BitVec n) : BitVec.ofInt 64 w.toInt = w.signExtend 64 := rfl

/-- An unsigned value stands in `RAW` padded with zeros. -/
theorem ofInt_toNat_eq_setWidth {n : Nat} (w : BitVec n) : BitVec.ofInt 64 (w.toNat : Int) = w.setWidth 64 := by
  rw [BitVec.ofInt_natCast, BitVec.ofNat_toNat]

/-- Settles O26: one byte is always two's complement. -/
theorem valueS1Completes : Obligations.ValueS1Completes := by
  intro s prec off _ hfits
  have hfield : FieldWord (readBytes s off 1) (readByte s off) := .one _
  have hraw := hfield.signedField_eq_toInt (p := s.params) (.inr (.inl (by simp)))
  exact (exec_eq_finish _ s).trans (finish_evalValue_of_ok hfits hraw (ofInt_toInt_eq_signExtend _))

/-- Settles O27: two bytes are always two's complement. -/
theorem valueS2Completes : Obligations.ValueS2Completes := by
  intro s prec off w _ hfits hw
  have hfield : FieldWord (readBytes s off 2) w := hw ▸ .two _ _
  have hraw := hfield.signedField_eq_toInt (p := s.params) (.inr (.inl (by simp)))
  exact (exec_eq_finish _ s).trans (finish_evalValue_of_ok hfits hraw (ofInt_toInt_eq_signExtend w))

/-- Settles O28: the top bit of four bytes is read as `SIZE4_MSB` says. -/
theorem valueS4Completes : Obligations.ValueS4Completes := by
  intro s prec off w _ hfits hw
  have hfield : FieldWord (readBytes s off 4) w := hw ▸ .four _ _ _ _
  rw [exec_eq_finish]
  refine ⟨fun hchoice => ?_, fun _ hp => ?_, fun hmsb hp => ?_⟩
  · exact finish_evalValue_of_ok hfits (hfield.signedField_eq_toInt (hchoice.imp_right .inr)) (ofInt_toInt_eq_signExtend w)
  · exact finish_evalValue_of_ok hfits (hfield.signedField_of_positive hp) (ofInt_toNat_eq_setWidth w)
  · exact finish_evalValue_of_unspecified hfits (hfield.signedField_of_refuse hmsb hp)

end Sys2Proof.Machine

/-! The text of a value (R104): each digit string of a rendering writes its number in decimal, and the integer part has no
leading zero. -/

namespace Sys2Proof.Machine

/-! ## Digits and the numbers they write -/

/-- The ASCII codes of `0` to `9`. -/
def IsDigit (b : Byte) : Prop := 0x30 ≤ b.toNat ∧ b.toNat ≤ 0x39

theorem toNat_asciiDigit {d : Nat} (h : d < 10) : (asciiDigit d).toNat = 48 + d := by
  rw [asciiDigit, BitVec.toNat_ofNat]
  omega

theorem isDigit_asciiDigit {d : Nat} (h : d < 10) : IsDigit (asciiDigit d) := by
  rw [IsDigit, toNat_asciiDigit h]
  omega

theorem decimalValue_concat (ds : List Byte) {d : Nat} (h : d < 10) :
    decimalValue (ds ++ [asciiDigit d]) = decimalValue ds * 10 + d := by
  simp [decimalValue, toNat_asciiDigit h]

/-- Digits written after others shift them by one place each. -/
theorem decimalValue_append (xs ys : List Byte) :
    decimalValue (xs ++ ys) = decimalValue xs * 10 ^ ys.length + decimalValue ys := by
  induction ys using List.reverseRecOn with
  | nil => simp [decimalValue]
  | append_singleton ys y ih =>
    have hlast (zs : List Byte) : decimalValue (zs ++ [y]) = decimalValue zs * 10 + (y.toNat - 48) := by
      simp [decimalValue]
    rw [← List.append_assoc, hlast, hlast, ih, List.length_append, List.length_singleton, pow_succ]
    ring

/-! ## The padded form -/

theorem isDigit_of_mem_fixedDigits {n v : Nat} {d : Byte} (h : d ∈ fixedDigits n v) : IsDigit d := by
  induction n generalizing v with
  | zero => cases h
  | succ n ih =>
    rcases List.mem_append.1 h with h | h
    · exact ih h
    · rw [List.mem_singleton.1 h]
      exact isDigit_asciiDigit (Nat.mod_lt v (by decide))

/-- `n` digits write a number modulo `10^n`. -/
theorem decimalValue_fixedDigits (n v : Nat) : decimalValue (fixedDigits n v) = v % 10 ^ n := by
  induction n generalizing v with
  | zero => simp [fixedDigits, decimalValue, Nat.mod_one]
  | succ n ih =>
    rw [fixedDigits, decimalValue_concat _ (Nat.mod_lt v (by decide)), ih, pow_succ', Nat.mod_mul]
    omega

/-! ## The form without leading zeros -/

theorem isDigit_of_mem_naturalDigits {fuel v : Nat} {d : Byte} (h : d ∈ naturalDigits fuel v) : IsDigit d := by
  induction fuel generalizing v with
  | zero => cases h
  | succ fuel ih =>
    unfold naturalDigits at h
    split at h
    · next hv =>
      rw [List.mem_singleton.1 h]
      exact isDigit_asciiDigit hv
    · rcases List.mem_append.1 h with h | h
      · exact ih h
      · rw [List.mem_singleton.1 h]
        exact isDigit_asciiDigit (Nat.mod_lt v (by decide))

theorem decimalValue_naturalDigits {fuel v : Nat} (h : v < 10 ^ fuel) : decimalValue (naturalDigits fuel v) = v := by
  induction fuel generalizing v with
  | zero => simpa [naturalDigits, decimalValue, eq_comm] using h
  | succ fuel ih =>
    unfold naturalDigits
    split
    · next hv => simpa [decimalValue] using decimalValue_concat [] hv
    · rw [decimalValue_concat _ (Nat.mod_lt v (by decide)), ih (by rw [pow_succ] at h; omega)]
      omega

theorem naturalDigits_ne_nil {fuel : Nat} (h : fuel ≠ 0) (v : Nat) : naturalDigits fuel v ≠ [] := by
  cases fuel with
  | zero => exact absurd rfl h
  | succ fuel =>
    unfold naturalDigits
    split <;> simp

/-- A leading `0` is the whole text: with a digit after it, the digits before that one would be the text of 0. -/
theorem naturalDigits_eq_zero_of_head {fuel v : Nat} (h : v < 10 ^ fuel)
    (hhead : (naturalDigits fuel v).head? = some 0x30) : naturalDigits fuel v = [0x30] := by
  induction fuel generalizing v with
  | zero => cases hhead
  | succ fuel ih =>
    unfold naturalDigits at hhead ⊢
    split
    · next hv =>
      rw [if_pos hv] at hhead
      exact congrArg (fun d => [d]) (Option.some.inj hhead)
    · next hv =>
      have hlt : v / 10 < 10 ^ fuel := by rw [pow_succ] at h; omega
      have hfuel : fuel ≠ 0 := by rintro rfl; omega
      rw [if_neg hv, List.head?_append_of_ne_nil _ (naturalDigits_ne_nil hfuel _)] at hhead
      have hvalue := decimalValue_naturalDigits hlt
      rw [ih hlt hhead] at hvalue
      have hzero : v / 10 = 0 := hvalue.symm
      omega

/-- Settles O30: the parts are the digits of the quotient and the remainder of `|raw|` by `10^p`. -/
theorem renderingWritesTheValue : Obligations.RenderingWritesTheValue := by
  intro raw p hraw
  have hquot : raw.natAbs / 10 ^ p < 10 ^ maxDigits := (Nat.div_le_self _ _).trans_lt hraw
  have hip := decimalValue_naturalDigits hquot
  have hfp : decimalValue (fixedDigits p (raw.natAbs % 10 ^ p)) = raw.natAbs % 10 ^ p := by
    rw [decimalValue_fixedDigits, Nat.mod_mod]
  refine ⟨naturalDigits maxDigits (raw.natAbs / 10 ^ p), fixedDigits p (raw.natAbs % 10 ^ p), rfl,
    fixedDigits_length _ _, fun d hd => ?_, hip, hfp, ?_, naturalDigits_ne_nil (by decide) _,
    naturalDigits_eq_zero_of_head hquot⟩
  · exact (List.mem_append.1 hd).elim isDigit_of_mem_naturalDigits isDigit_of_mem_fixedDigits
  · rw [decimalValue_append, fixedDigits_length, hip, hfp]
    exact Nat.div_add_mod' _ _

end Sys2Proof.Machine

/-! `SUPPORTED` answers from its bitmap alone (R142, R173): a done one has committed `supportedResults` of a legal quantity
type and of a bitmap that fits `BITMAP_BITS`, and on such a bitmap each half of the split is a filter by the registry. -/

namespace Sys2Proof.Machine

/-! ## How `SUPPORTED` runs -/

/-- Settles O47: `SUPPORTED.V1` evaluates to a rejection without reading a byte. -/
theorem supportedV1AlwaysRejects : Obligations.SupportedV1AlwaysRejects := fun s => exec_eq_finish .supportedV1 s

/-- From class 2 up `SUPPORTED` is the evaluation of its class, then the commit rule; class 5 shares class 4's row (R146). -/
theorem exec_decodeSupported {c : VClass} (hc : c ≠ .v1) (s : State) :
    exec (decodeSupported c) s = finishOperation s (evalSupported c s) := by
  cases c with
  | v1 => exact absurd rfl hc
  | v2 => rfl
  | v3 => rfl
  | v4 => rfl
  | v5 => rfl

/-- What a done `SUPPORTED` has committed (R143). -/
theorem supported_done_results {c : VClass} {s t : State} (hp : s.params.wf)
    (h : exec (decodeSupported c) s = .next t) (hdone : t.phase = .done) :
    ∃ (qt : Nat) (canreset : Bool) (mask : Nat), qt ≤ 5 ∧ mask < 2 ^ s.params.bitmapBits ∧
      t.res = supportedResults s.params qt canreset mask := by
  have hc : c ≠ .v1 := by
    rintro rfl
    obtain rfl := Host.Outcome.next.inj ((supportedV1AlwaysRejects s).symm.trans h)
    cases hdone
  rw [exec_decodeSupported hc] at h
  obtain ⟨r, hr, rfl⟩ | ⟨k, -, rfl⟩ := finish_next h
  · obtain ⟨-, hqt, mask, hmask, rfl⟩ := evalSupported_ok hr
    exact ⟨_, _, mask, hqt, composeBitmap_lt hp hmask, rfl⟩
  · cases hdone

/-! ## The committed bitmaps -/

/-- On a bitmap of `n` bits one half of the split keeps the bits with its registry answer (R142). -/
theorem splitMask_testBit_of_lt (p : Params) (base : Int) {mask n : Nat} (hit : Bool) (h : mask < 2 ^ n) (i : Nat) :
    (splitMask p base mask hit n).testBit i = (mask.testBit i && (regHas p (base + i) == hit)) := by
  rw [splitMask_testBit]
  by_cases hi : i < n
  · simp [hi]
  · have hbit : mask.testBit i = false :=
      Nat.testBit_lt_two_pow (h.trans_le (Nat.pow_le_pow_right (by decide) (Nat.le_of_not_lt hi)))
    simp [hbit]

/-- The base of the split survives its register, as scale 0's FlatIndex (R142, R16). -/
theorem supportedResults_flatidx_toInt (p : Params) {qt : Nat} (canreset : Bool) (mask : Nat) (h : qt ≤ 5) :
    (supportedResults p qt canreset mask).flatidx.toInt = flatIndex qt 0 :=
  flatIndex_toInt h (by decide)

theorem supportedResults_qtype_toNat (p : Params) {qt : Nat} (canreset : Bool) (mask : Nat) (h : qt ≤ 5) :
    (supportedResults p qt canreset mask).qtype.toNat = qt :=
  Nat.mod_eq_of_lt (by omega)

/-- Settles O51: the committed bitmap fits `BITMAP_BITS`, so no bit of it is lost to the split. -/
theorem supportedSplitsByRegistry : Obligations.SupportedSplitsByRegistry := by
  intro c s t hp h hdone
  obtain ⟨qt, canreset, mask, hqt, hmask, hres⟩ := supported_done_results hp h hdone
  rw [hres, supportedResults_flatidx_toInt _ _ _ hqt, supportedResults_qtype_toNat _ _ _ hqt]
  refine ⟨splitMask_or _ _ _ _ hmask, splitMask_and _ _ _ _, hmask, Int.add_zero _, fun i => ?_, fun i => ?_, rfl⟩
  · exact (splitMask_testBit_of_lt _ _ true hmask i).trans (by rw [beq_true]; rfl)
  · exact (splitMask_testBit_of_lt _ _ false hmask i).trans (by rw [beq_false]; rfl)

end Sys2Proof.Machine

/-! `PACKSCALE` always completes as one done form, except that class 4 has no outcome above 263 (R150); its classes differ in
the number of packed bytes and in the word that holds them (R151 to R154). -/

namespace Sys2Proof.Machine

/-! ## The packed bytes as one word -/

theorem ofNat_shiftLeft (w n k : Nat) : BitVec.ofNat w (n <<< k) = BitVec.ofNat w n <<< k :=
  BitVec.eq_of_toNat_eq <| by simp [Nat.shiftLeft_eq]

/-- A request byte is the masked scale at bit 3, in a word of any width (R152, R153). -/
theorem ofNat_requestByte (w bits scale : Nat) :
    BitVec.ofNat w (requestByte bits scale) = (BitVec.ofNat w scale &&& BitVec.ofNat w (2 ^ bits - 1)) <<< 3 := by
  rw [requestByte, ofNat_shiftLeft, ← Nat.and_two_pow_sub_one_eq_mod, BitVec.ofNat_and]

/-- The mask takes nothing from a scale that fits its bits. -/
theorem requestByte_of_lt {bits scale : Nat} (h : scale < 2 ^ bits) : requestByte bits scale = scale * 8 := by
  rw [requestByte, Nat.mod_eq_of_lt h, Nat.shiftLeft_eq]

/-- Two bytes in `PACKB` are their concatenation, the second on top (R150). -/
theorem ofNat_mul_add_toNat_eq_append {n : Nat} (h : n < 256) (b : Byte) :
    BitVec.ofNat 16 (n * 256 + b.toNat) = BitVec.ofNat 8 n ++ b := by
  have hb : b.toNat < 256 := b.isLt
  apply BitVec.eq_of_toNat_eq
  rw [toNat_append_byte, BitVec.toNat_ofNat, BitVec.toNat_ofNat, Nat.mod_eq_of_lt h, Nat.mod_eq_of_lt (by omega)]

/-! ## The classes (R151 to R154) -/

/-- A `PACKSCALE` that completes writes the packed bytes and changes nothing else. -/
theorem finish_packDone {s : State} {n b0 b1 : Nat} {packb : Word16} (h : BitVec.ofNat 16 (b1 * 256 + b0) = packb) :
    finishOperation s (packDone s n b0 b1) = .next { s with
      phase := .done, reason := 0, res := { Results.zero with packn := BitVec.ofNat 2 n, packb := packb } } := by
  rw [← h]
  rfl

/-- One request byte alone stands in the low half of `PACKB`. -/
theorem finish_packDone_requestByte (s : State) (bits scale : Nat) :
    finishOperation s (packDone s 1 (requestByte bits scale) 0) = .next { s with
      phase := .done, reason := 0,
      res := { Results.zero with
        packn := 1, packb := (BitVec.ofNat 16 scale &&& BitVec.ofNat 16 (2 ^ bits - 1)) <<< 3 } } :=
  finish_packDone <| by rw [Nat.zero_mul, Nat.zero_add, ofNat_requestByte]

theorem evalPackScaleV4_of_le_seven {scale : Nat} (h : scale ≤ 7) (s : State) :
    evalPackScaleV4 scale s = packDone s 1 (requestByte 3 scale) 0 := if_pos h

theorem evalPackScaleV4_of_marker {scale : Nat} (hlo : 8 ≤ scale) (hhi : scale ≤ 263) (s : State) :
    evalPackScaleV4 scale s = packDone s 2 s.params.packMarker.toNat (scale - 8) := by
  rw [evalPackScaleV4, if_neg (by omega), if_pos hhi]

theorem evalPackScaleV4_of_gt {scale : Nat} (h : 263 < scale) (s : State) :
    evalPackScaleV4 scale s = .unspecified .packScaleRange := by
  rw [evalPackScaleV4, if_neg (by omega), if_neg (by omega)]

/-- Settles O52: the outputs of no packed byte are the zero outputs. -/
theorem packScaleV1Completes : Obligations.PackScaleV1Completes := fun s sc =>
  (exec_eq_finish (.packScaleV1 sc) s).trans (finish_packDone rfl)

/-- Settles O53: the two classes are one request byte of two and of three bits. -/
theorem packScaleV2AndV3Complete : Obligations.PackScaleV2AndV3Complete := fun s sc =>
  ⟨(exec_eq_finish (.packScaleV2 sc) s).trans (finish_packDone_requestByte s 2 sc),
    (exec_eq_finish (.packScaleV3 sc) s).trans (finish_packDone_requestByte s 3 sc)⟩

/-- Settles O54: up to 7 the mask takes nothing from the scale, and up to 263 `scale - 8` is one byte. -/
theorem packScaleV4Completes : Obligations.PackScaleV4Completes := by
  intro s sc
  rw [exec_eq_finish, evalOf]
  refine ⟨fun h => ?_, fun hlo hhi => ?_, fun h => ?_, rfl⟩
  · rw [evalPackScaleV4_of_le_seven h]
    exact finish_packDone (by rw [Nat.zero_mul, Nat.zero_add, requestByte_of_lt (by omega)])
  · rw [evalPackScaleV4_of_marker hlo hhi]
    exact finish_packDone (ofNat_mul_add_toNat_eq_append (by omega) _)
  · rw [evalPackScaleV4_of_gt h, finish_unspecified]

end Sys2Proof.Machine

/-! The encoder writes each operand into the field of `ARG` that the decoder reads it from (R28, R83), so decoding
returns it; and whatever the decoder reads from those fields fits them. -/

namespace Sys2Proof.Machine

open Sys2Proof.Laws.EncodedRow (argSize_encodeValueArg)

/-! ## The fields of a written `ARG` -/

theorem argPrec_encodeValueArg {size prec off : Nat} (hsize : size < 8) (hprec : prec < 8) :
    argPrec (encodeValueArg size prec off) = prec := by
  simp only [argPrec, encodeValueArg, bitsOf_eq, BitVec.toNat_ofNat]
  omega

theorem argOff_encodeValueArg {size prec off : Nat} (hsize : size < 8) (hprec : prec < 8) (hoff : off < 256) :
    argOff (encodeValueArg size prec off) = off := by
  simp only [argOff, encodeValueArg, bitsOf_eq, BitVec.toNat_ofNat]
  omega

theorem argScale_ofNat {scale : Nat} (h : scale < 512) : argScale (BitVec.ofNat 16 scale) = scale := by
  simp only [argScale, bitsOf_eq, BitVec.toNat_ofNat]
  omega

theorem valueOperandsFit_iff {prec off : Nat} : valueOperandsFit prec off = true ↔ prec < 8 ∧ off < 256 := by
  simp [valueOperandsFit]

theorem scaleOperandFits_iff {scale : Nat} : scaleOperandFits scale = true ↔ scale < 512 := by simp [scaleOperandFits]

/-- An `ARG` that the encoder wrote for `VALUE` decodes to the row of its size with its operands. -/
theorem decodeValue_encodeValueArg {size prec off : Nat} (h : valueOperandsFit prec off = true) {i : Instr}
    (hrow : (size = 1 ∧ .valueS1 prec off = i) ∨ (size = 2 ∧ .valueS2 prec off = i) ∨
      (size = 4 ∧ .valueS4 prec off = i)) :
    decodeValue (encodeValueArg size prec off) = .ok i := by
  obtain ⟨hprec, hoff⟩ := valueOperandsFit_iff.1 h
  have hsize : size < 8 := by omega
  rw [decodeValue_eq_ok, argSize_encodeValueArg _ _ hsize, argPrec_encodeValueArg hsize hprec,
    argOff_encodeValueArg hsize hprec hoff]
  exact hrow

/-- So does an `ARG` that holds a ScaleIndex, under a version of the row's class. -/
theorem decode_packScale {v : BitVec 8} {k : VClass} (hv : vclassOf v = some k) {scale : Nat}
    (h : scaleOperandFits scale = true) : decode ⟨4, v, BitVec.ofNat 16 scale⟩ = .ok (decodePackScale scale k) :=
  decode_eq_ok.2 <| .inr <| .inr <| .inr
    ⟨rfl, decodeVersioned_eq_ok.2 ⟨k, hv, by rw [argScale_ofNat (scaleOperandFits_iff.1 h)]⟩⟩

/-- Settles O1: row by row, the fields of the written registers are the row's class and operands. -/
theorem decodeInvertsEncode : Obligations.DecodeInvertsEncode := by
  intro i h
  cases i with
  | reportV1 => rfl
  | reportV2 => rfl
  | reportV3 => rfl
  | reportV4 => rfl
  | reportV5 => rfl
  | supportedV1 => rfl
  | supportedV2 => rfl
  | supportedV3 => rfl
  | supportedV4 => rfl
  | valueS1 prec off => exact decodeValue_encodeValueArg h (.inl ⟨rfl, rfl⟩)
  | valueS2 prec off => exact decodeValue_encodeValueArg h (.inr (.inl ⟨rfl, rfl⟩))
  | valueS4 prec off => exact decodeValue_encodeValueArg h (.inr (.inr ⟨rfl, rfl⟩))
  | packScaleV1 scale => exact decode_packScale (k := .v1) rfl h
  | packScaleV2 scale => exact decode_packScale (k := .v2) rfl h
  | packScaleV3 scale => exact decode_packScale (k := .v3) rfl h
  | packScaleV4 scale => exact decode_packScale (k := .v4) rfl h

/-! ## The operands of a decoded operation -/

/-- The operation's operands, where it has any, are the fields of `arg` (R83). -/
def CarriesArgFields (arg : BitVec 16) : Instr → Prop
  | .valueS1 prec off | .valueS2 prec off | .valueS4 prec off => prec = argPrec arg ∧ off = argOff arg
  | .packScaleV1 scale | .packScaleV2 scale | .packScaleV3 scale | .packScaleV4 scale => scale = argScale arg
  | _ => True

theorem carriesArgFields_of_decode {c : Command} {i : Instr} (h : decode c = .ok i) : CarriesArgFields c.arg i := by
  rcases decode_eq_ok.1 h with ⟨-, hrow⟩ | ⟨-, hrow⟩ | ⟨-, hrow⟩ | ⟨-, hrow⟩
  · obtain ⟨k, -, rfl⟩ := decodeVersioned_eq_ok.1 hrow
    cases k <;> trivial
  · obtain ⟨k, -, rfl⟩ := decodeVersioned_eq_ok.1 hrow
    cases k <;> trivial
  · rcases decodeValue_eq_ok.1 hrow with ⟨-, rfl⟩ | ⟨-, rfl⟩ | ⟨-, rfl⟩ <;> exact ⟨rfl, rfl⟩
  · obtain ⟨k, -, rfl⟩ := decodeVersioned_eq_ok.1 hrow
    cases k <;> rfl

/-- Fields of three, eight and nine bits meet the operand ranges (R28). -/
theorem CarriesArgFields.wellFormed {arg : BitVec 16} {i : Instr} (h : CarriesArgFields arg i) :
    i.wellFormed = true := by
  have hvalue : valueOperandsFit (argPrec arg) (argOff arg) = true :=
    valueOperandsFit_iff.2 ⟨bitsOf_lt _ _ _, bitsOf_lt _ _ _⟩
  have hscale : scaleOperandFits (argScale arg) = true := scaleOperandFits_iff.2 (bitsOf_lt _ _ _)
  cases i with
  | valueS1 prec off => obtain ⟨rfl, rfl⟩ := h; exact hvalue
  | valueS2 prec off => obtain ⟨rfl, rfl⟩ := h; exact hvalue
  | valueS4 prec off => obtain ⟨rfl, rfl⟩ := h; exact hvalue
  | packScaleV1 scale => obtain rfl := h; exact hscale
  | packScaleV2 scale => obtain rfl := h; exact hscale
  | packScaleV3 scale => obtain rfl := h; exact hscale
  | packScaleV4 scale => obtain rfl := h; exact hscale
  | _ => rfl

/-- Settles O3: a slice of `ARG` is the number the decoder takes as the operand. -/
theorem decodedOperandsAreArgFields : Obligations.DecodedOperandsAreArgFields := by
  intro c i h
  have hfields := carriesArgFields_of_decode h
  refine ⟨hfields.wellFormed, fun prec off hi => ?_, fun sc hi => ?_⟩
  · rcases hi with rfl | rfl | rfl <;> exact hfields
  · rcases hi with rfl | rfl | rfl | rfl <;> exact hfields

/-- Settles O4: the written words evaluate to their operations. -/
theorem writtenWordsDecode : Obligations.WrittenWordsDecode := by
  refine ⟨?_, ?_, ?_, ?_, ?_, ?_⟩ <;> decide

end Sys2Proof.Machine

/-! What an operation can evaluate to, said once for all sixteen: a completion of one of four forms, or a rejection for
one of the reasons that R165 gives (R11). -/

namespace Sys2Proof.Machine

/-! ## A completed report -/

/-- The four phases of a report that completes, each with its result (R122, R124). -/
structure ReportPhases (c : VClass) (s : State) (h : ReportHeader) (m : ReportNumeric) (q : ReportPrevious)
    (v : ReportScale) : Prop where
  header : parseHeader c s = .ok h
  numeric : parseNumeric c h s = .ok m
  previous : parsePrevious h m s = .ok q
  validated : validateReport c h m s = .ok v

namespace ReportPhases

variable {c : VClass} {s : State} {h : ReportHeader} {m : ReportNumeric} {q : ReportPrevious} {v : ReportScale}

theorem size_legal (r : ReportPhases c s h m q v) : elementSizeLegal h.size := by
  obtain ⟨-, -, hsize, rfl⟩ := parseHeader_ok r.header
  exact hsize

theorem raw_range (r : ReportPhases c s h m q v) : -2147483648 ≤ m.raw ∧ m.raw < 4294967296 := by
  obtain ⟨-, hraw, -⟩ := parseNumeric_ok r.numeric
  exact signedField_range (by simpa using r.size_legal) hraw

theorem praw_range (r : ReportPhases c s h m q v) : -2147483648 ≤ q.praw ∧ q.praw < 4294967296 := by
  rcases parsePrevious_ok r.previous with ⟨-, rfl⟩ | ⟨-, -, hpraw, -⟩
  · norm_num
  · exact signedField_range (by simpa using r.size_legal) hpraw

/-- Without delta-time the previous value is the placeholder (R121). -/
theorem previous_eq (r : ReportPhases c s h m q v) (hdelta : m.delta = 0) : q = ⟨0, false, m.pos⟩ := by
  rcases parsePrevious_ok r.previous with ⟨-, hq⟩ | ⟨hne, -⟩
  · exact hq
  · exact absurd hdelta hne

/-- `HASPREV` is up exactly with delta-time (R23, R121). -/
theorem hasprev_iff (r : ReportPhases c s h m q v) : q.hasprev = true ↔ m.delta ≠ 0 := by
  rcases parsePrevious_ok r.previous with ⟨hdelta, rfl⟩ | ⟨hdelta, -, -, hprev, -⟩
  · simp [hdelta]
  · simp [hdelta, hprev]

/-! What the registers hold of it: no value is cut (R16). -/

theorem qtype_toNat (r : ReportPhases c s h m q v) : (reportResults h m q v).qtype.toNat = h.qt := by
  obtain ⟨hqt, -⟩ := reportPhases_bounds r.header r.numeric r.previous r.validated
  exact Nat.mod_eq_of_lt hqt

theorem rate_toNat (r : ReportPhases c s h m q v) : (reportResults h m q v).rate.toNat = h.rate := by
  obtain ⟨-, -, -, hrate, -⟩ := reportPhases_bounds r.header r.numeric r.previous r.validated
  exact Nat.mod_eq_of_lt hrate

theorem size_toNat (r : ReportPhases c s h m q v) : (reportResults h m q v).size.toNat = h.size := by
  obtain ⟨-, -, -, -, hsize, -⟩ := reportPhases_bounds r.header r.numeric r.previous r.validated
  exact Nat.mod_eq_of_lt hsize

theorem scale3_toNat (r : ReportPhases c s h m q v) : (reportResults h m q v).scale3.toNat = h.scale3 := by
  obtain ⟨-, -, -, -, -, -, hscale3, -⟩ := reportPhases_bounds r.header r.numeric r.previous r.validated
  exact Nat.mod_eq_of_lt hscale3

theorem delta_toNat (r : ReportPhases c s h m q v) : (reportResults h m q v).delta.toNat = m.delta := by
  obtain ⟨-, -, -, -, -, -, -, hdelta, -⟩ := reportPhases_bounds r.header r.numeric r.previous r.validated
  exact Nat.mod_eq_of_lt hdelta

theorem scale_toNat (r : ReportPhases c s h m q v) : (reportResults h m q v).scale.toNat = v.scale := by
  obtain ⟨-, -, -, -, -, -, -, -, hscale, -⟩ := reportPhases_bounds r.header r.numeric r.previous r.validated
  exact Nat.mod_eq_of_lt hscale

theorem pos_le (r : ReportPhases c s h m q v) : q.pos ≤ addressable s := by
  obtain ⟨-, -, -, -, -, -, -, -, -, -, hpos⟩ := reportPhases_bounds r.header r.numeric r.previous r.validated
  exact hpos

theorem pos_toNat (r : ReportPhases c s h m q v) : (BitVec.ofNat 8 q.pos).toNat = q.pos := by
  have hpos := r.pos_le
  have := addressable_le s
  exact Nat.mod_eq_of_lt (by omega)

theorem qt_range (r : ReportPhases c s h m q v) : 1 ≤ h.qt ∧ h.qt ≤ 5 := by
  obtain ⟨-, h5, h1, -⟩ := reportPhases_bounds r.header r.numeric r.previous r.validated
  exact ⟨h1, h5⟩

theorem scale_lt (r : ReportPhases c s h m q v) : v.scale < 256 := by
  obtain ⟨-, -, -, -, -, -, -, -, hscale, -⟩ := reportPhases_bounds r.header r.numeric r.previous r.validated
  exact hscale

theorem flatidx_toInt (r : ReportPhases c s h m q v) :
    (reportResults h m q v).flatidx.toInt = flatIndex h.qt v.scale :=
  flatIndex_toInt r.qt_range.2 r.scale_lt

theorem delta_eq_zero_iff (r : ReportPhases c s h m q v) : (reportResults h m q v).delta = 0 ↔ m.delta = 0 := by
  rw [← r.delta_toNat, ← BitVec.toNat_inj]
  rfl

theorem hasprev_eq (r : ReportPhases c s h m q v) :
    (reportResults h m q v).hasprev = decide ((reportResults h m q v).delta ≠ 0) := by
  rw [Bool.eq_iff_iff, decide_eq_true_iff, ne_eq, r.delta_eq_zero_iff]
  exact r.hasprev_iff

theorem prec_lt (r : ReportPhases c s h m q v) : h.prec < 8 := by
  obtain ⟨-, -, -, -, -, hprec, -⟩ := reportPhases_bounds r.header r.numeric r.previous r.validated
  exact hprec

/-- The outputs of a previous value that is not there are the placeholders (R37, R121). -/
theorem placeholder (r : ReportPhases c s h m q v) (hprev : (reportResults h m q v).hasprev = false) :
    (reportResults h m q v).praw = 0 ∧ (reportResults h m q v).t1 = [] ∧ (reportResults h m q v).f1 = 0 := by
  have hdelta : m.delta = 0 := by
    by_contra hne
    exact Bool.false_ne_true (hprev.symm.trans (r.hasprev_iff.2 hne))
  rw [r.previous_eq hdelta]
  exact ⟨rfl, rfl, rfl⟩

end ReportPhases

theorem reportPhases_of_evalReport {c : VClass} {s : State} {r : Completion} (e : evalReport c s = .ok r) :
    ∃ h m q v, ReportPhases c s h m q v ∧ r = ⟨reportResults h m q v, BitVec.ofNat 8 q.pos⟩ := by
  obtain ⟨h, m, q, v, eh, em, eq, ev, hr⟩ := evalReport_ok e
  exact ⟨h, m, q, v, ⟨eh, em, eq, ev⟩, hr⟩

/-! ## Completions -/

/-- Everything a well-formed operation can complete with, by its family. -/
inductive Completes (s : State) : Completion → Prop where
  | report {c h m q v} (phases : ReportPhases c s h m q v) : Completes s ⟨reportResults h m q v, BitVec.ofNat 8 q.pos⟩
  | supported {c mask} (canreset : Bool) {qt : Nat} (hqt : qt ≤ 5) (hmask : composeBitmap c s = .ok mask) :
      Completes s ⟨supportedResults s.params qt canreset mask, s.pos⟩
  | value {size prec off : Nat} {raw : Int} (hsize : elementSizeLegal size) (hprec : prec < 8)
      (hraw : signedField s.params (readBytes s off size) = .ok raw) : Completes s ⟨valueResults size prec raw, s.pos⟩
  | packScale {n : Nat} (b0 b1 : Nat) (hn : n ≤ 2) : Completes s ⟨packResults n b0 b1, s.pos⟩

theorem completes_of_evalReport {c : VClass} {s : State} {r : Completion} (e : evalReport c s = .ok r) :
    Completes s r := by
  obtain ⟨h, m, q, v, phases, rfl⟩ := reportPhases_of_evalReport e
  exact .report phases

theorem completes_of_evalSupported {c : VClass} {s : State} {r : Completion} (e : evalSupported c s = .ok r) :
    Completes s r := by
  obtain ⟨-, hqt, mask, hmask, rfl⟩ := evalSupported_ok e
  exact .supported _ hqt hmask

theorem completes_of_evalValue {size prec off : Nat} {s : State} {r : Completion} (hsize : elementSizeLegal size)
    (hfit : valueOperandsFit prec off = true) (e : evalValue size prec off s = .ok r) : Completes s r := by
  obtain ⟨-, raw, hraw, rfl⟩ := evalValue_ok e
  exact .value hsize (valueOperandsFit_iff.1 hfit).1 hraw

theorem completes_of_packDone {n b0 b1 : Nat} {s : State} {r : Completion} (hn : n ≤ 2)
    (e : packDone s n b0 b1 = .ok r) : Completes s r := by
  cases e
  exact .packScale b0 b1 hn

theorem completes_of_evalOf {i : Instr} (hi : i.wellFormed = true) {s : State} {r : Completion}
    (e : evalOf i s = .ok r) : Completes s r := by
  cases i with
  | reportV1 => exact completes_of_evalReport e
  | reportV2 => exact completes_of_evalReport e
  | reportV3 => exact completes_of_evalReport e
  | reportV4 => exact completes_of_evalReport e
  | reportV5 => exact completes_of_evalReport e
  | supportedV1 => cases e
  | supportedV2 => exact completes_of_evalSupported e
  | supportedV3 => exact completes_of_evalSupported e
  | supportedV4 => exact completes_of_evalSupported e
  | valueS1 prec off => exact completes_of_evalValue (.inl rfl) hi e
  | valueS2 prec off => exact completes_of_evalValue (.inr (.inl rfl)) hi e
  | valueS4 prec off => exact completes_of_evalValue (.inr (.inr rfl)) hi e
  | packScaleV1 scale => exact completes_of_packDone (by decide) e
  | packScaleV2 scale => exact completes_of_packDone (by decide) e
  | packScaleV3 scale => exact completes_of_packDone (by decide) e
  | packScaleV4 scale =>
    rcases evalPackScaleV4_ok e with ⟨-, rfl⟩ | ⟨-, -, rfl⟩
    · exact .packScale _ _ (by decide)
    · exact .packScale _ _ (by decide)

/-! ## Rejections -/

/-- The error kinds that an operation raises: not the rate type, which two bits cannot have wrong (R114), and not the
kind that R163 reserves for the host. -/
def Raised : ErrorKind → Prop
  | .malformedField .rateType => False
  | .implausibleReading => False
  | _ => True

theorem parseHeader_reject {c : VClass} {s : State} {k : ErrorKind} (e : parseHeader c s = .reject k) : Raised k := by
  unfold parseHeader at e
  rw [if_neg (not_not.2 (rateField_legal c _))] at e
  split at e
  · cases e; trivial
  · split at e
    · cases e; trivial
    · split at e
      · cases e; trivial
      · cases e

theorem parseDelta_reject {c : VClass} {raw : Int} {pos : Nat} {s : State} {k : ErrorKind}
    (e : parseDelta c raw pos s = .reject k) : k = .lengthMismatch := by
  unfold parseDelta at e
  split at e
  · cases e
  · split at e
    · cases e; rfl
    · cases e

theorem parseNumeric_reject {c : VClass} {h : ReportHeader} {s : State} {k : ErrorKind}
    (e : parseNumeric c h s = .reject k) : k = .lengthMismatch := by
  unfold parseNumeric at e
  split at e
  · cases e; rfl
  · rcases bind_eq_reject e with e | ⟨raw, -, e⟩
    · exact absurd e (signedField_not_reject _ _ _)
    · exact parseDelta_reject e

theorem parsePrevious_reject {h : ReportHeader} {m : ReportNumeric} {s : State} {k : ErrorKind}
    (e : parsePrevious h m s = .reject k) : k = .lengthMismatch := by
  unfold parsePrevious at e
  split at e
  · cases e
  · split at e
    · cases e; rfl
    · rcases bind_eq_reject e with e | ⟨praw, -, e⟩
      · exact absurd e (signedField_not_reject _ _ _)
      · cases e

theorem resolveScale_not_reject (c : VClass) (scale3 : Nat) (s : State) (k : ErrorKind) :
    resolveScale c scale3 s ≠ .reject k := by
  unfold resolveScale
  split
  · split <;> simp
  · simp

theorem validateReport_reject {c : VClass} {h : ReportHeader} {m : ReportNumeric} {s : State} {k : ErrorKind}
    (e : validateReport c h m s = .reject k) : k = .lengthMismatch ∨ k = .unresolvedIndex := by
  unfold validateReport at e
  split at e
  · cases e; exact .inl rfl
  · rcases bind_eq_reject e with e | ⟨v, -, e⟩
    · exact absurd e (resolveScale_not_reject _ _ _ _)
    · split at e
      · cases e
      · cases e; exact .inr rfl

theorem evalReport_reject {c : VClass} {s : State} {k : ErrorKind} (e : evalReport c s = .reject k) : Raised k := by
  rcases bind_eq_reject e with e | ⟨h, -, e⟩
  · exact parseHeader_reject e
  rcases bind_eq_reject e with e | ⟨m, -, e⟩
  · rw [parseNumeric_reject e]; trivial
  rcases bind_eq_reject e with e | ⟨q, -, e⟩
  · rw [parsePrevious_reject e]; trivial
  rcases bind_eq_reject e with e | ⟨v, -, e⟩
  · rcases validateReport_reject e with rfl | rfl <;> trivial
  · cases e

theorem composeBitmap_reject {c : VClass} {s : State} {k : ErrorKind} (e : composeBitmap c s = .reject k) :
    k = .lengthMismatch := by
  unfold composeBitmap at e
  split at e
  · unfold extendBitmap at e
    split at e
    · cases e; rfl
    · split at e
      · cases e
      · split at e
        · cases e; rfl
        · cases e
  · cases e

theorem evalSupported_reject {c : VClass} {s : State} {k : ErrorKind} (e : evalSupported c s = .reject k) :
    Raised k := by
  unfold evalSupported at e
  split at e
  · cases e; trivial
  · split at e
    · cases e; trivial
    · rcases bind_eq_reject e with e | ⟨mask, -, e⟩
      · rw [composeBitmap_reject e]; trivial
      · cases e

theorem evalValue_reject {size prec off : Nat} {s : State} {k : ErrorKind} (e : evalValue size prec off s = .reject k) :
    k = .lengthMismatch := by
  unfold evalValue at e
  split at e
  · rcases bind_eq_reject e with e | ⟨raw, -, e⟩
    · exact absurd e (signedField_not_reject _ _ _)
    · cases e
  · cases e; rfl

theorem evalPackScaleV4_not_reject (scale : Nat) (s : State) (k : ErrorKind) : evalPackScaleV4 scale s ≠ .reject k := by
  unfold evalPackScaleV4
  split
  · simp [packDone]
  · split <;> simp [packDone]

theorem raised_of_evalOf {i : Instr} {s : State} {k : ErrorKind} (e : evalOf i s = .reject k) : Raised k := by
  cases i with
  | reportV1 => exact evalReport_reject e
  | reportV2 => exact evalReport_reject e
  | reportV3 => exact evalReport_reject e
  | reportV4 => exact evalReport_reject e
  | reportV5 => exact evalReport_reject e
  | supportedV1 => cases e; trivial
  | supportedV2 => exact evalSupported_reject e
  | supportedV3 => exact evalSupported_reject e
  | supportedV4 => exact evalSupported_reject e
  | valueS1 prec off => rw [evalValue_reject e]; trivial
  | valueS2 prec off => rw [evalValue_reject e]; trivial
  | valueS4 prec off => rw [evalValue_reject e]; trivial
  | packScaleV1 scale => cases e
  | packScaleV2 scale => cases e
  | packScaleV3 scale => cases e
  | packScaleV4 scale => exact absurd e (evalPackScaleV4_not_reject scale s k)

/-! ## What an operation leaves (R17, R36, R167) -/

/-- `START` clears the reason, so only a rejection's end shows one; no kind is written as 0 (R165). -/
theorem reasonOf_ne_zero (k : ErrorKind) : reasonOf k ≠ 0 := by
  cases k with
  | malformedField field => cases field <;> decide
  | lengthMismatch => decide
  | unresolvedIndex => decide
  | implausibleReading => decide
  | unsupportedOperation => decide

/-- Settles O22: both ends of an operation write the four fields only. -/
theorem operationWritesOutputsOnly : Obligations.OperationWritesOutputsOnly := by
  intro i s t h
  rw [exec_eq_finish] at h
  obtain ⟨r, -, rfl⟩ | ⟨k, -, rfl⟩ := finish_next h
  · exact ⟨rfl, fun _ => rfl, .inl ⟨rfl, rfl⟩⟩
  · exact ⟨rfl, fun _ => rfl, .inr ⟨rfl, reasonOf_ne_zero k, rfl, rfl⟩⟩

theorem evalOf_decodeSupported_ok {c : VClass} {s : State} {r : Completion} (e : evalOf (decodeSupported c) s = .ok r) :
    ∃ (qt : Nat) (canreset : Bool) (mask : Nat), r = ⟨supportedResults s.params qt canreset mask, s.pos⟩ := by
  have hsupported {k : VClass} (e : evalSupported k s = .ok r) :
      ∃ (qt : Nat) (canreset : Bool) (mask : Nat), r = ⟨supportedResults s.params qt canreset mask, s.pos⟩ := by
    obtain ⟨-, -, mask, -, hr⟩ := evalSupported_ok e
    exact ⟨_, _, mask, hr⟩
  cases c with
  | v1 => cases e
  | v2 => exact hsupported e
  | v3 => exact hsupported e
  | v4 => exact hsupported e
  | v5 => exact hsupported e

theorem evalOf_decodePackScale_ok {c : VClass} {sc : Nat} {s : State} {r : Completion}
    (e : evalOf (decodePackScale sc c) s = .ok r) : ∃ n b0 b1, r = ⟨packResults n b0 b1, s.pos⟩ := by
  have hv4 (e : evalPackScaleV4 sc s = .ok r) : ∃ n b0 b1, r = ⟨packResults n b0 b1, s.pos⟩ := by
    rcases evalPackScaleV4_ok e with ⟨-, hr⟩ | ⟨-, -, hr⟩ <;> exact ⟨_, _, _, hr⟩
  cases c with
  | v1 => cases e; exact ⟨_, _, _, rfl⟩
  | v2 => cases e; exact ⟨_, _, _, rfl⟩
  | v3 => cases e; exact ⟨_, _, _, rfl⟩
  | v4 => exact hv4 e
  | v5 => exact hv4 e

theorem evalOf_value_ok {prec off : Nat} {i : Instr}
    (hi : i = .valueS1 prec off ∨ i = .valueS2 prec off ∨ i = .valueS4 prec off) {s : State} {r : Completion}
    (e : evalOf i s = .ok r) :
    ∃ (size : Nat) (raw : Int), r = ⟨valueResults size prec raw, s.pos⟩ := by
  have hvalue {size : Nat} (e : evalValue size prec off s = .ok r) :
      ∃ (size : Nat) (raw : Int), r = ⟨valueResults size prec raw, s.pos⟩ := by
    obtain ⟨-, raw, -, hr⟩ := evalValue_ok e
    exact ⟨size, raw, hr⟩
  rcases hi with rfl | rfl | rfl <;> exact hvalue e

/-- Settles O23: each family commits a record that sets its own outputs over the zero ones. -/
theorem unwrittenOutputsStayZero : Obligations.UnwrittenOutputsStayZero := by
  refine ⟨fun c s t h => ?_, fun c s t h => ?_, fun prec off i s t hi h => ?_, fun c sc s t h => ?_⟩
  · rw [exec_decodeReport] at h
    obtain ⟨r, hr, rfl⟩ | ⟨k, -, rfl⟩ := finish_next h
    · obtain ⟨h, m, q, v, -, rfl⟩ := reportPhases_of_evalReport hr
      rfl
    · rfl
  · rw [exec_eq_finish] at h
    obtain ⟨r, hr, rfl⟩ | ⟨k, -, rfl⟩ := finish_next h
    · obtain ⟨qt, canreset, mask, rfl⟩ := evalOf_decodeSupported_ok hr
      rfl
    · rfl
  · rw [exec_eq_finish] at h
    obtain ⟨r, hr, rfl⟩ | ⟨k, -, rfl⟩ := finish_next h
    · obtain ⟨size, raw, rfl⟩ := evalOf_value_ok hi hr
      rfl
    · rfl
  · rw [exec_eq_finish] at h
    obtain ⟨r, hr, rfl⟩ | ⟨k, -, rfl⟩ := finish_next h
    · obtain ⟨n, b0, b1, rfl⟩ := evalOf_decodePackScale_ok hr
      rfl
    · rfl

end Sys2Proof.Machine

/-! The lengths of the texts (R18). -/

namespace Sys2Proof.Machine

theorem renderSign_length_le (raw : Int) : (renderSign raw).length ≤ 1 := by
  unfold renderSign
  split <;> simp

/-- A fraction is nothing, or the point and its digits (R104). -/
theorem renderFraction_length (p fp : Nat) : (renderFraction p fp).length = if p = 0 then 0 else p + 1 := by
  unfold renderFraction
  split <;> simp [fixedDigits_length]

theorem render_ne_nil (raw : Int) (p : Nat) : render raw p ≠ [] := by
  simp [render, naturalDigits_ne_nil (show maxDigits ≠ 0 by decide)]

/-- A magnitude of at most ten digits has `10 - p` of them before the point. -/
theorem render_length_le {raw : Int} {p : Nat} (hraw : raw.natAbs < 10 ^ 10) (hp : p ≤ 9) :
    (render raw p).length ≤ 12 := by
  have hquot : raw.natAbs / 10 ^ p < 10 ^ (10 - p) := by
    rw [Nat.div_lt_iff_lt_mul (by positivity), ← pow_add, Nat.sub_add_cancel (by omega)]
    exact hraw
  have hdigits := naturalDigits_length maxDigits (10 - p) _ hquot (by omega)
  have hsign := renderSign_length_le raw
  rw [render, List.length_append, List.length_append, renderFraction_length]
  split <;> omega

/-- Settles O31: the range of a field's value is within ten digits. -/
theorem renderingFitsTheBuffer : Obligations.RenderingFitsTheBuffer := fun raw p hlo hhi hp =>
  ⟨List.length_pos_of_ne_nil (render_ne_nil raw p), render_length_le (by omega) (by omega)⟩

end Sys2Proof.Machine

/-! The block invariant is two invariants side by side, of how the block ended and of the outputs it holds. The host's
writes keep both, an operation commits outputs that meet the second (R16 to R18, R20 to R23, R31, R36). -/

namespace Sys2Proof.Machine

/-! ## The two halves of the invariant -/

/-- The part of the invariant about the outputs alone. -/
structure OutputsInv (p : Params) (r : Results) : Prop where
  qtypeRange : r.qtype.toNat ≤ 5
  sizeRange : r.size.toNat ∈ [0, 1, 2, 4]
  rawRange : -2147483648 ≤ r.raw.toInt ∧ r.raw.toInt < 4294967296
  prawRange : -2147483648 ≤ r.praw.toInt ∧ r.praw.toInt < 4294967296
  flatRange : -16 ≤ r.flatidx.toInt ∧ r.flatidx.toInt ≤ 319
  supmaskFits : r.supmask < 2 ^ p.bitmapBits
  maskCovers : r.resmask ||| r.warnmask = r.supmask
  maskDisjoint : r.resmask &&& r.warnmask = 0
  warnSays : r.warn = decide (r.warnmask ≠ 0)
  hasprevSays : r.hasprev = decide (r.delta ≠ 0)
  placeholder : r.hasprev = false → r.praw = 0 ∧ r.t1 = [] ∧ r.f1 = 0
  textFits : r.t0.length ≤ 12 ∧ r.t1.length ≤ 12
  packnRange : r.packn.toNat ≤ 2

/-- The part about the outcome registers: a visible phase, its reason, and no outputs but of a done operation. -/
structure EndInv (phase : Phase) (reason : BitVec 8) (r : Results) : Prop where
  visible : phase = .idle ∨ phase = .done ∨ phase = .rejected
  noReason : phase ≠ .rejected → reason = 0
  reasonLegal : phase = .rejected → reason ∈ [(0x11 : BitVec 8), 0x31, 0x02, 0x03, 0x05]
  noPartial : phase ≠ .done → r = Results.zero

/-- The block invariant by its parts. -/
structure InvParts (s : State) : Prop where
  params : s.params.wf
  payload : Memory.wf s.pb
  ending : EndInv s.phase s.reason s.res
  cursor : s.pos.toNat ≤ 254
  outputs : OutputsInv s.params s.res

theorem blockInv_iff_parts (s : State) : BlockInv s ↔ InvParts s where
  mp h :=
    { params := h.paramsLegal
      payload := h.payloadCanonical
      ending := ⟨h.phaseVisible, h.noReason, h.reasonLegal, h.noPartialReading⟩
      cursor := h.cursorBound
      outputs :=
        ⟨h.qtypeRange, h.sizeRange, h.rawRange, h.prawRange, h.flatRange, h.supmaskFits, h.maskCovers, h.maskDisjoint,
          h.warnSays, h.hasprevSays, h.placeholder, h.textFits, h.packnRange⟩ }
  mpr h :=
    { paramsLegal := h.params
      payloadCanonical := h.payload
      phaseVisible := h.ending.visible
      noReason := h.ending.noReason
      reasonLegal := h.ending.reasonLegal
      noPartialReading := h.ending.noPartial
      cursorBound := h.cursor
      qtypeRange := h.outputs.qtypeRange
      sizeRange := h.outputs.sizeRange
      rawRange := h.outputs.rawRange
      prawRange := h.outputs.prawRange
      flatRange := h.outputs.flatRange
      supmaskFits := h.outputs.supmaskFits
      maskCovers := h.outputs.maskCovers
      maskDisjoint := h.outputs.maskDisjoint
      warnSays := h.outputs.warnSays
      hasprevSays := h.outputs.hasprevSays
      placeholder := h.outputs.placeholder
      textFits := h.outputs.textFits
      packnRange := h.outputs.packnRange }

/-! ## The outputs an operation commits -/

theorem outputsInv_zero (p : Params) : OutputsInv p Results.zero where
  qtypeRange := by decide
  sizeRange := by decide
  rawRange := by decide
  prawRange := by decide
  flatRange := by decide
  supmaskFits := Nat.two_pow_pos _
  maskCovers := rfl
  maskDisjoint := rfl
  warnSays := rfl
  hasprevSays := rfl
  placeholder _ := ⟨rfl, rfl, rfl⟩
  textFits := by decide
  packnRange := by decide

theorem size_mem_of_legal {size : Nat} (h : elementSizeLegal size) : (BitVec.ofNat 3 size).toNat ∈ [0, 1, 2, 4] := by
  rcases h with rfl | rfl | rfl <;> decide

/-- The text of a value that a field of 1, 2 or 4 bytes can give fits its buffer. -/
theorem render_fits {raw : Int} (hraw : -2147483648 ≤ raw ∧ raw < 4294967296) {p : Nat} (hp : p < 8) :
    (render raw p).length ≤ 12 := render_length_le (by omega) (by omega)

theorem ReportPhases.outputsInv {c : VClass} {s : State} {h : ReportHeader} {m : ReportNumeric} {q : ReportPrevious}
    {v : ReportScale} (r : ReportPhases c s h m q v) (p : Params) : OutputsInv p (reportResults h m q v) where
  qtypeRange := r.qtype_toNat.trans_le r.qt_range.2
  sizeRange := size_mem_of_legal r.size_legal
  rawRange := (ofInt64_toInt r.raw_range).symm ▸ r.raw_range
  prawRange := (ofInt64_toInt r.praw_range).symm ▸ r.praw_range
  flatRange := by
    have hqt := r.qt_range
    have hscale := r.scale_lt
    rw [r.flatidx_toInt, flatIndex]
    omega
  supmaskFits := Nat.two_pow_pos _
  maskCovers := Nat.zero_or 0
  maskDisjoint := Nat.zero_and 0
  warnSays := rfl
  hasprevSays := r.hasprev_eq
  placeholder hprev := r.placeholder hprev
  textFits := ⟨render_fits r.raw_range r.prec_lt, by
    show (if q.hasprev then render q.praw h.prec else []).length ≤ 12
    split
    · exact render_fits r.praw_range r.prec_lt
    · exact Nat.zero_le _⟩
  packnRange := Nat.zero_le _

theorem outputsInv_supportedResults {c : VClass} {s : State} (hp : s.params.wf) (canreset : Bool) {qt mask : Nat}
    (hqt : qt ≤ 5) (hmask : composeBitmap c s = .ok mask) :
    OutputsInv s.params (supportedResults s.params qt canreset mask) :=
  have hlt := composeBitmap_lt hp hmask
  { outputsInv_zero s.params with
    qtypeRange := (supportedResults_qtype_toNat s.params canreset mask hqt).trans_le hqt
    flatRange := by
      rw [supportedResults_flatidx_toInt s.params canreset mask hqt, flatIndex]
      omega
    supmaskFits := hlt
    maskCovers := splitMask_or _ _ _ _ hlt
    maskDisjoint := splitMask_and _ _ _ _
    warnSays := rfl }

theorem outputsInv_valueResults (p : Params) {bs : List Byte} {size prec : Nat} {raw : Int} (hprec : prec < 8)
    (hsize : elementSizeLegal size) (hlen : bs.length = size) (hraw : signedField p bs = .ok raw) :
    OutputsInv p (valueResults size prec raw) :=
  have hrange := signedField_range (hlen.symm ▸ hsize) hraw
  { outputsInv_zero p with
    sizeRange := size_mem_of_legal hsize
    rawRange := (ofInt64_toInt hrange).symm ▸ hrange
    textFits := ⟨render_fits hrange hprec, Nat.zero_le _⟩ }

theorem outputsInv_packResults (p : Params) {n : Nat} (b0 b1 : Nat) (hn : n ≤ 2) : OutputsInv p (packResults n b0 b1) :=
  { outputsInv_zero p with packnRange := (Nat.mod_le n 4).trans hn }

theorem Completes.outputsInv {s : State} (hp : s.params.wf) {r : Completion} (h : Completes s r) :
    OutputsInv s.params r.res := by
  cases h with
  | report phases => exact phases.outputsInv s.params
  | supported canreset hqt hmask => exact outputsInv_supportedResults hp canreset hqt hmask
  | value hsize hprec hraw => exact outputsInv_valueResults s.params hprec hsize (readBytes_length _ _ _) hraw
  | packScale b0 b1 hn => exact outputsInv_packResults s.params b0 b1 hn

/-- The cursor ends within the payload, or where it was (R21). -/
theorem Completes.cursor_le {s : State} (hpos : s.pos.toNat ≤ 254) {r : Completion} (h : Completes s r) :
    r.pos.toNat ≤ 254 := by
  cases h with
  | report phases => exact phases.pos_toNat.trans_le (phases.pos_le.trans (addressable_le s))
  | supported _ _ _ => exact hpos
  | value _ _ _ => exact hpos
  | packScale _ _ _ => exact hpos

/-! ## The states a step can end in -/

theorem Raised.reason_legal {k : ErrorKind} (h : Raised k) :
    reasonOf k ∈ [(0x11 : BitVec 8), 0x31, 0x02, 0x03, 0x05] := by
  cases k with
  | malformedField field =>
    cases field with
    | quantityType => decide
    | rateType => exact h.elim
    | elementSize => decide
  | lengthMismatch => decide
  | unresolvedIndex => decide
  | implausibleReading => exact h.elim
  | unsupportedOperation => decide

/-- An idle block has no reason and no outputs. -/
theorem endInv_idle : EndInv .idle 0 Results.zero where
  visible := .inl rfl
  noReason _ := rfl
  reasonLegal h := nomatch h
  noPartial _ := rfl

theorem endInv_done (r : Results) : EndInv .done 0 r where
  visible := .inr (.inl rfl)
  noReason _ := rfl
  reasonLegal h := nomatch h
  noPartial h := absurd rfl h

theorem Raised.endInv {k : ErrorKind} (h : Raised k) : EndInv .rejected (reasonOf k) Results.zero where
  visible := .inr (.inr rfl)
  noReason h' := absurd rfl h'
  reasonLegal _ := h.reason_legal
  noPartial _ := rfl

namespace InvParts

theorem commitDone {s : State} (h : InvParts s) {r : Completion} (hr : Completes s r) : InvParts (commitDone s r) where
  params := h.params
  payload := h.payload
  ending := endInv_done r.res
  cursor := hr.cursor_le h.cursor
  outputs := hr.outputsInv h.params

theorem enterRejected {s : State} (h : InvParts s) {k : ErrorKind} (hk : Raised k) : InvParts (enterRejected s k) where
  params := h.params
  payload := h.payload
  ending := hk.endInv
  cursor := h.cursor
  outputs := outputsInv_zero _

theorem clearBlock {s : State} (h : InvParts s) : InvParts (clearBlock s) where
  params := h.params
  payload := h.payload
  ending := endInv_idle
  cursor := Nat.zero_le _
  outputs := outputsInv_zero _

theorem resetBlock {s : State} (h : InvParts s) : InvParts (resetBlock s) where
  params := h.params
  payload := reset_pb_wf
  ending := endInv_idle
  cursor := Nat.zero_le _
  outputs := outputsInv_zero _

/-- A write to an input register or a further access of the host touches nothing the invariant speaks of. -/
theorem of_inputs {s : State} (h : InvParts s) (op : BitVec 3) (version len : BitVec 8) (arg : BitVec 16)
    (queue : List HostAction) :
    InvParts { s with op := op, version := version, len := len, arg := arg, hostQueue := queue } :=
  ⟨h.params, h.payload, h.ending, h.cursor, h.outputs⟩

theorem hostWriteByte {s t : State} (h : InvParts s) {k : Nat} {b : Byte} (e : hostWriteByte s k b = .next t) :
    InvParts t := by
  obtain ⟨hk, rfl⟩ := hostWriteByte_next e
  exact ⟨h.params, memSet_wf b hk h.payload, h.ending, h.cursor, h.outputs⟩

/-- A decoded operation is well-formed, so it completes with one of the forms of `Completes` or rejects. -/
theorem startOperation {s t : State} (h : InvParts s) (e : startOperation s = .next t) : InvParts t := by
  obtain ⟨i, hdecode, hexec⟩ | ⟨-, rfl⟩ | ⟨-, rfl⟩ := startOperation_next e
  · rw [exec_eq_finish] at hexec
    obtain ⟨r, hr, rfl⟩ | ⟨k, hk, rfl⟩ := finish_next hexec
    · exact h.commitDone (completes_of_evalOf (carriesArgFields_of_decode hdecode).wellFormed hr)
    · exact h.enterRejected (raised_of_evalOf hk)
  · exact h.enterRejected trivial
  · exact h.enterRejected trivial

theorem writeCsr {s t : State} (h : InvParts s) {n : Nat} {v : Word16} (e : writeCsr s n v = .next t) : InvParts t := by
  obtain ⟨-, e⟩ | ⟨-, rfl⟩ | ⟨-, rfl⟩ | ⟨-, rfl⟩ | ⟨-, rfl⟩ | ⟨-, rfl⟩ := writeCsr_next e
  · obtain rfl | rfl | e | e := writeCtrl_next e
    · exact h
    · exact h.clearBlock
    · exact h.startOperation e
    · exact h.clearBlock.startOperation e
  · exact h.of_inputs _ _ _ _ _
  · exact h.of_inputs _ _ _ _ _
  · exact h.of_inputs _ _ _ _ _
  · exact h.of_inputs _ _ _ _ _
  · exact h

theorem hostStep {s t : State} (h : InvParts s) {a : HostAction} (e : hostStep a s = .next t) : InvParts t := by
  cases a with
  | writeCsr n v => exact h.writeCsr e
  | writeByte k b => exact h.hostWriteByte e
  | read => cases e; exact h
  | reset => cases e; exact h.resetBlock

theorem step {s t : State} (h : InvParts s) (e : step s = .next t) : InvParts t := by
  obtain ⟨-, rfl⟩ | ⟨a, rest, -, e⟩ := step_next e
  · exact h
  · exact (h.of_inputs s.op s.version s.len s.arg rest).hostStep e

end InvParts

/-- Settles O19: the reset block is an idle one with default parameters. -/
theorem invariantAtReset : Obligations.InvariantAtReset :=
  (blockInv_iff_parts _).2
    { params := show Params.default.wf by decide
      payload := reset_pb_wf
      ending := endInv_idle
      cursor := Nat.zero_le _
      outputs := outputsInv_zero _ }

/-- Settles O20: a step is one access of the host, and each access keeps the parts of the invariant. -/
theorem everyStepKeepsInvariant : Obligations.EveryStepKeepsInvariant := fun s t h e =>
  (blockInv_iff_parts t).2 (((blockInv_iff_parts s).1 h).step e)

end Sys2Proof.Machine

/-! What one access of the host does (R24 to R32, R45, R184): the strobes, the input registers, the payload buffer,
reset, and what the host reads. -/

namespace Sys2Proof.Machine

/-! ## The strobes -/

theorem step_of_access {s : State} {a : HostAction} {rest : List HostAction} (h : s.hostQueue = a :: rest) :
    step s = hostStep a { s with hostQueue := rest } := by
  rw [step, h]

/-- Bit 0 of a `CTRL` write starts, after the `CLEAR` that bit 1 asks for (R29). -/
theorem writeCtrl_of_start {v : Word16} (h : v.getLsbD 0 = true) (s : State) :
    writeCtrl s v = startOperation (if v.getLsbD 1 then clearBlock s else s) := by
  have h0 : v.toNat.testBit 0 = true := h
  rw [writeCtrl, h0, show v.toNat.testBit 1 = v.getLsbD 1 from rfl]
  cases v.getLsbD 1 <;> rfl

theorem writeCtrl_of_clear_only {v : Word16} (h1 : v.getLsbD 1 = true) (h0 : v.getLsbD 0 = false) (s : State) :
    writeCtrl s v = .next (clearBlock s) := by
  have h1 : v.toNat.testBit 1 = true := h1
  have h0 : v.toNat.testBit 0 = false := h0
  rw [writeCtrl, h1, h0]

theorem writeCtrl_of_neither {v : Word16} (h0 : v.getLsbD 0 = false) (h1 : v.getLsbD 1 = false) (s : State) :
    writeCtrl s v = .next s := by
  have h1 : v.toNat.testBit 1 = false := h1
  have h0 : v.toNat.testBit 0 = false := h0
  rw [writeCtrl, h1, h0]

theorem startOperation_of_decode {s : State} {i : Instr} (h : decode (commandOf s) = .ok i) :
    startOperation s = exec i s := by
  rw [startOperation, h]

theorem startOperation_of_reserved {s : State} (h : decode (commandOf s) = .error .reservedOperation) :
    startOperation s = .next { s with phase := .rejected, reason := 0x05, res := Results.zero } := by
  rw [startOperation, h]
  rfl

theorem startOperation_of_illegalSize {s : State} (h : decode (commandOf s) = .error .illegalElementSize) :
    startOperation s = .next { s with phase := .rejected, reason := 0x31, res := Results.zero } := by
  rw [startOperation, h]
  rfl

theorem startOperation_of_versionZero {s : State} (h : decode (commandOf s) = .error .versionZero) :
    startOperation s = .refused .versionZero := by
  rw [startOperation, h]

/-- Settles O6: the strobe samples the command registers, which `CLEAR` leaves. -/
theorem stepRunsDecodedOperation : Obligations.StepRunsDecodedOperation := by
  intro s t v rest hq hstart ht
  have hstep : step s = startOperation t := by
    rw [step_of_access hq, ht]
    exact writeCtrl_of_start hstart _
  have hcommand : commandOf t = commandOf s := by
    rw [ht]
    split <;> rfl
  rw [hstep, ← hcommand]
  exact ⟨rfl, fun i => startOperation_of_decode, startOperation_of_reserved, startOperation_of_illegalSize,
    startOperation_of_versionZero⟩

theorem decode_of_decodeTableWord {nbits w : Nat} {i : Instr} (h : decodeTableWord nbits w = some i) :
    decode (commandOfSelector w) = .ok i := by
  unfold decodeTableWord at h
  split at h
  · split at h
    · next j hj => exact hj.trans (congrArg _ (Option.some.inj h))
    · cases h
  · cases h

/-- Settles O7: the placed access is a `START` strobe over the placed command. -/
theorem fetchWordRunsTableRow : Obligations.FetchWordRunsTableRow := by
  intro s nbits w i h
  have hstep : step (s.withFetchWord nbits w) = startOperation { placeCommand s w with hostQueue := s.hostQueue } :=
    (step_of_access (a := .writeCsr 0 1) (rest := s.hostQueue) rfl).trans (writeCtrl_of_start (v := 1) (by decide) _)
  exact hstep.trans (startOperation_of_decode (decode_of_decodeTableWord h))

/-! ## Command registers that name no operation (R84, R86) -/

theorem decode_of_reserved {c : Command} (h : c.op = 0 ∨ c.op = 5 ∨ c.op = 6 ∨ c.op = 7) :
    decode c = .error .reservedOperation := by
  unfold decode
  rcases h with h | h | h | h <;> rw [h] <;> rfl

theorem decode_of_versionZero {c : Command} (h : c.op = 1 ∨ c.op = 2 ∨ c.op = 4) (hv : c.version = 0) :
    decode c = .error .versionZero := by
  unfold decode
  rcases h with h | h | h <;> rw [h, hv] <;> rfl

theorem decode_of_value {c : Command} (h : c.op = 3) : decode c = decodeValue c.arg := by
  rw [decode, h]
  rfl

theorem decodeValue_of_illegalSize {arg : BitVec 16} (h : argSize arg ∉ [1, 2, 4]) :
    decodeValue arg = .error .illegalElementSize := by
  unfold decodeValue
  split
  case h_4 => rfl
  all_goals simp_all

/-- Settles O8: `VALUE` decodes from `ARG` alone. -/
theorem reservedCommandValues : Obligations.ReservedCommandValues := by
  refine ⟨fun s h => startOperation_of_reserved (decode_of_reserved h),
    fun s h hv => startOperation_of_versionZero (decode_of_versionZero h hv), fun c v h => ?_⟩
  rw [decode_of_value h]
  exact (decode_of_value (c := { c with version := v }) h).symm

/-- Settles O9: the decoder rejects the size before anything of the payload is looked at. -/
theorem valueIllegalSizeRejects : Obligations.ValueIllegalSizeRejects := fun s hop hsize =>
  startOperation_of_illegalSize <| (decode_of_value (c := commandOf s) hop).trans (decodeValue_of_illegalSize hsize)

/-! ## The input registers -/

theorem setWidth_three_eq_and (v : Word16) : (v.setWidth 3).setWidth 16 = v &&& 0x0007 := by
  apply BitVec.eq_of_toNat_eq
  rw [BitVec.toNat_and, show (0x0007 : Word16).toNat = 2 ^ 3 - 1 from rfl, Nat.and_two_pow_sub_one_eq_mod]
  simp only [BitVec.toNat_setWidth]
  omega

theorem setWidth_eight_eq_and (v : Word16) : (v.setWidth 8).setWidth 16 = v &&& 0x00FF := by
  apply BitVec.eq_of_toNat_eq
  rw [BitVec.toNat_and, show (0x00FF : Word16).toNat = 2 ^ 8 - 1 from rfl, Nat.and_two_pow_sub_one_eq_mod]
  simp only [BitVec.toNat_setWidth]
  omega

/-- A register read changes with its own register only. -/
theorem readCsr_congr {s t : State} {n m : Nat} (hm : m ≠ n) (hop : n ≠ 1 → t.op = s.op)
    (hversion : n ≠ 2 → t.version = s.version) (hlen : n ≠ 3 → t.len = s.len) (harg : n ≠ 4 → t.arg = s.arg)
    (hstatus : statusWord t = statusWord s) (hreason : t.reason = s.reason) : readCsr t m = readCsr s m := by
  unfold readCsr
  split
  · exact congrArg _ (hop hm.symm)
  · exact congrArg _ (hversion hm.symm)
  · exact congrArg _ (hlen hm.symm)
  · exact harg hm.symm
  · exact hstatus
  · exact congrArg _ hreason
  · rfl

/-- Settles O10: each write sets one field, which the other registers do not show. -/
theorem hostWritesInputRegisters : Obligations.HostWritesInputRegisters := by
  intro s n v rest hq h1 h4
  rw [step_of_access hq]
  have hn : n = 1 ∨ n = 2 ∨ n = 3 ∨ n = 4 := by omega
  rcases hn with rfl | rfl | rfl | rfl
  · refine ⟨_, rfl, setWidth_three_eq_and v, fun m hm => ?_, rfl⟩
    exact readCsr_congr hm (absurd rfl) (fun _ => rfl) (fun _ => rfl) (fun _ => rfl) rfl rfl
  · refine ⟨_, rfl, setWidth_eight_eq_and v, fun m hm => ?_, rfl⟩
    exact readCsr_congr hm (fun _ => rfl) (absurd rfl) (fun _ => rfl) (fun _ => rfl) rfl rfl
  · refine ⟨_, rfl, setWidth_eight_eq_and v, fun m hm => ?_, rfl⟩
    exact readCsr_congr hm (fun _ => rfl) (fun _ => rfl) (absurd rfl) (fun _ => rfl) rfl rfl
  · refine ⟨_, rfl, rfl, fun m hm => ?_, rfl⟩
    exact readCsr_congr hm (fun _ => rfl) (fun _ => rfl) (fun _ => rfl) (absurd rfl) rfl rfl

theorem writeCsr_of_five_le {n : Nat} (h : 5 ≤ n) (s : State) (v : Word16) : writeCsr s n v = .next s := by
  obtain ⟨k, rfl⟩ := Nat.exists_eq_add_of_le' h
  rfl

theorem readCsr_of_absent {n : Nat} (h : n = 0 ∨ 7 ≤ n) (s : State) : readCsr s n = 0 := by
  rcases h with rfl | h
  · rfl
  · obtain ⟨k, rfl⟩ := Nat.exists_eq_add_of_le' h
    rfl

/-- Settles O11: no other access has a case that changes the block. -/
theorem otherAccessesHaveNoEffect : Obligations.OtherAccessesHaveNoEffect := by
  refine ⟨fun s n v rest hq h => ?_, fun s rest hq => step_of_access hq, fun s hq => by rw [step, hq],
    fun s n h => readCsr_of_absent h s⟩
  rw [step_of_access hq]
  rcases h with h | ⟨rfl, h0, h1⟩
  · exact writeCsr_of_five_le h _ v
  · exact writeCtrl_of_neither h0 h1 _

/-! ## `CLEAR` and reset -/

/-- Settles O12: the strobe alone is `clearBlock`. -/
theorem clearReturnsToIdle : Obligations.ClearReturnsToIdle := fun s _ rest hq h1 h0 =>
  (step_of_access hq).trans (writeCtrl_of_clear_only h1 h0 { s with hostQueue := rest })

theorem finishOperation_clearBlock (s : State) (e : Eval Completion) :
    finishOperation (clearBlock s) e = finishOperation { s with pos := 0 } e := by
  cases e <;> rfl

/-- Only a report moves the cursor (R21). -/
theorem evalOf_pos {i : Instr} {s : State} {r : Completion} (e : evalOf i s = .ok r) :
    (∃ k, i = decodeReport k) ∨ r.pos = s.pos := by
  rcases instr_families i with hi | ⟨k, rfl⟩ | ⟨scale, k, rfl⟩ | ⟨prec, off, hi⟩
  · exact .inl hi
  · obtain ⟨_, _, _, rfl⟩ := evalOf_decodeSupported_ok e
    exact .inr rfl
  · obtain ⟨_, _, _, rfl⟩ := evalOf_decodePackScale_ok e
    exact .inr rfl
  · obtain ⟨_, _, rfl⟩ := evalOf_value_ok hi e
    exact .inr rfl

/-- Two evaluations are the same when their results are and their completions end at the same cursor. -/
theorem eval_eq_of_results {e e' : Eval Completion} (hres : e.results = e'.results)
    (hpos : ∀ r r', e = .ok r → e' = .ok r' → r.pos = r'.pos) : e = e' := by
  cases e with
  | ok r =>
    cases e' with
    | ok r' =>
      obtain ⟨res, pos⟩ := r
      obtain ⟨res', pos'⟩ := r'
      obtain rfl : res = res' := Eval.ok.inj hres
      obtain rfl : pos = pos' := hpos _ _ rfl rfl
      rfl
    | reject k => cases hres
    | unspecified u => cases hres
  | reject k => cases e' <;> cases hres; rfl
  | unspecified u => cases e' <;> cases hres; rfl

/-- On the same snapshot and cursor an operation evaluates to the same completion, final cursor included. -/
theorem SameSnapshot.evalOf_eq {s t : State} (h : SameSnapshot s t) (hpos : s.pos = t.pos) (i : Instr) :
    evalOf i s = evalOf i t := by
  by_cases hi : ∃ k, i = decodeReport k
  · obtain ⟨k, rfl⟩ := hi
    cases k <;> exact h.evalReport_eq _
  · refine eval_eq_of_results (h.evalOf_results i) fun r r' hr hr' => ?_
    rw [(evalOf_pos hr).resolve_left hi, (evalOf_pos hr').resolve_left hi, hpos]

theorem evalOf_clearBlock (i : Instr) (s : State) : evalOf i (clearBlock s) = evalOf i { s with pos := 0 } :=
  SameSnapshot.evalOf_eq (s := clearBlock s) (t := { s with pos := 0 }) ⟨rfl, rfl, rfl, fun _ _ => rfl⟩ rfl i

/-- Settles O13: `CLEAR` and the start of an operation write the same fields, but for the cursor. -/
theorem clearBeforeStartIsAbsorbed : Obligations.ClearBeforeStartIsAbsorbed := by
  intro i s
  rw [exec_eq_finish, exec_eq_finish, evalOf_clearBlock, finishOperation_clearBlock]

/-- Settles O14: each register of the reset state is a literal. -/
theorem resetValues : Obligations.ResetValues := by
  refine ⟨fun n => ?_, fun i => ?_, rfl, rfl, rfl, rfl, rfl, rfl, rfl, rfl, rfl, fun k => rfl⟩
  · unfold readCsr
    split <;> rfl
  · unfold readResult
    split <;> rfl

/-- Settles O15: the reset access is `resetBlock`. -/
theorem resetClearsTheBlock : Obligations.ResetClearsTheBlock := fun _ _ hq =>
  ⟨_, step_of_access hq, rfl, rfl, rfl, rfl, rfl, rfl, rfl, rfl, rfl, rfl, rfl⟩

/-! ## The payload buffer -/

theorem readByte_memSet_same (s : State) (k : Nat) (b : Byte) : readByte { s with pb := memSet s.pb k b } k = b := by
  simp [readByte]

theorem readByte_memSet_other (s : State) {j k : Nat} (b : Byte) (h : j ≠ k) :
    readByte { s with pb := memSet s.pb k b } j = readByte s j := by
  simp only [readByte, memGet?_memSet_other s.pb b h]

/-- Settles O16: a write below 255 is `memSet`, and no other is taken. -/
theorem payloadWriteThenRead : Obligations.PayloadWriteThenRead := by
  intro s k b rest hq
  rw [step_of_access hq]
  refine ⟨fun hk => ⟨{ s with hostQueue := rest, pb := memSet s.pb k b }, if_pos hk, ?_, fun j hj => ?_, memSet_wf b hk,
    rfl⟩, fun hk => if_neg (Nat.not_lt.2 hk)⟩
  · exact readByte_memSet_same { s with hostQueue := rest } k b
  · exact readByte_memSet_other { s with hostQueue := rest } b hj

/-! ## What the host reads -/

theorem phaseCode_le (p : Phase) : phaseCode p ≤ 6 := by cases p <;> decide

theorem testBit_of_digit {n k : Nat} {b : Bool} (h : n / 2 ^ k % 2 = b.toNat) : n.testBit k = b := by
  rw [Nat.testBit_eq_decide_div_mod_eq, h]
  cases b <;> rfl

/-- The places of `STATUS`: the phase in bits 2:0 and one flag in each of bits 3 to 9 (R30). -/
structure StatusPlaces (s : State) (w : Word16) : Prop where
  phase : w.toNat % 8 = phaseCode s.phase
  busy : w.getLsbD 3 = busyFlag s
  done : w.getLsbD 4 = doneFlag s
  rej : w.getLsbD 5 = rejFlag s
  warn : w.getLsbD 6 = s.res.warn
  exporting : w.getLsbD 7 = s.res.exporting
  hasprev : w.getLsbD 8 = s.res.hasprev
  canreset : w.getLsbD 9 = s.res.canreset
  reserved : ∀ i, 10 ≤ i → w.getLsbD i = false

/-- `STATUS` has room for the phase and its seven flags, each of which is one of its binary digits. -/
theorem statusWord_places (s : State) : StatusPlaces s (statusWord s) := by
  have hphase := phaseCode_le s.phase
  have hflag (b : Bool) : b.toNat ≤ 1 := Bool.toNat_le b
  have h3 := hflag (busyFlag s)
  have h4 := hflag (doneFlag s)
  have h5 := hflag (rejFlag s)
  have h6 := hflag s.res.warn
  have h7 := hflag s.res.exporting
  have h8 := hflag s.res.hasprev
  have h9 := hflag s.res.canreset
  have hsum : (statusWord s).toNat =
      phaseCode s.phase + 8 * (busyFlag s).toNat + 16 * (doneFlag s).toNat + 32 * (rejFlag s).toNat
        + 64 * s.res.warn.toNat + 128 * s.res.exporting.toNat + 256 * s.res.hasprev.toNat
        + 512 * s.res.canreset.toNat := Nat.mod_eq_of_lt (by omega)
  exact
    { phase := by omega
      busy := testBit_of_digit (by omega)
      done := testBit_of_digit (by omega)
      rej := testBit_of_digit (by omega)
      warn := testBit_of_digit (by omega)
      exporting := testBit_of_digit (by omega)
      hasprev := testBit_of_digit (by omega)
      canreset := testBit_of_digit (by omega)
      reserved := fun i hi => Nat.testBit_lt_two_pow <|
        lt_of_lt_of_le (show (statusWord s).toNat < 2 ^ 10 by omega) (Nat.pow_le_pow_right (by decide) hi) }

theorem busyFlag_eq (s : State) :
    busyFlag s = decide (s.phase ∈ [.parseHeader, .parseNumeric, .parsePrevious, .validate]) := by
  unfold busyFlag
  cases s.phase <;> decide

theorem doneFlag_eq (s : State) : doneFlag s = decide (s.phase = .done) := by
  unfold doneFlag
  cases s.phase <;> decide

theorem rejFlag_eq (s : State) : rejFlag s = decide (s.phase = .rejected) := by
  unfold rejFlag
  cases s.phase <;> decide

/-- Between steps no phase is a working one (R22). -/
theorem BlockInv.busyFlag_eq_false {s : State} (h : BlockInv s) : busyFlag s = false := by
  unfold busyFlag
  rcases h.phaseVisible with hp | hp | hp <;> rw [hp] <;> rfl

/-- A bit of `STATUS` from 6 up shows an output, and only a done operation has one (R36). -/
theorem BlockInv.done_of_result_bit {s : State} (h : BlockInv s) {i : Nat} (hi : 6 ≤ i)
    (hbit : (statusWord s).getLsbD i = true) : s.phase = .done := by
  have hplaces := statusWord_places s
  by_contra hphase
  have hzero := h.noPartialReading hphase
  have hoff : (statusWord s).getLsbD i = false := by
    rcases Nat.lt_or_ge i 10 with h10 | h10
    · interval_cases i
      · rw [hplaces.warn, hzero, zero_warn]
      · rw [hplaces.exporting, hzero, zero_exporting]
      · rw [hplaces.hasprev, hzero, zero_hasprev]
      · rw [hplaces.canreset, hzero, zero_canreset]
    · exact hplaces.reserved i h10
  exact Bool.false_ne_true (hoff.symm.trans hbit)

theorem readCsr_reason_getLsbD (s : State) (i : Nat) : (readCsr s 6).getLsbD i = s.reason.getLsbD i := by
  show (s.reason.setWidth 16).getLsbD i = _
  rw [BitVec.getLsbD_setWidth]
  rcases Nat.lt_or_ge i 16 with h | h
  · simp [h]
  · simp [Nat.not_lt.2 h, BitVec.getLsbD_of_ge s.reason i (by omega)]

/-- The reasons fit their six bits (R31). -/
theorem BlockInv.reason_lt {s : State} (h : BlockInv s) : s.reason.toNat < 2 ^ 6 := by
  by_cases hphase : s.phase = .rejected
  · have hlegal : ∀ r ∈ [(0x11 : BitVec 8), 0x31, 0x02, 0x03, 0x05], r.toNat < 2 ^ 6 := by decide
    exact hlegal _ (h.reasonLegal hphase)
  · rw [h.noReason hphase]
    decide

/-- Settles O17: the flags are the digits of `STATUS`, and the invariant says when they can be up. -/
theorem statusWordBits : Obligations.StatusWordBits := by
  intro s
  have hplaces := statusWord_places s
  have hcode {p : Phase} (hp : s.phase = p) : (statusWord s).toNat % 8 = phaseCode p := hp ▸ hplaces.phase
  have hdone := hplaces.done.trans (doneFlag_eq s)
  have hrej := hplaces.rej.trans (rejFlag_eq s)
  refine ⟨hcode, hcode, hcode, hcode, hcode, hcode, hcode, hplaces.busy.trans (busyFlag_eq s), hdone, hrej,
    hplaces.warn, hplaces.exporting, hplaces.hasprev, hplaces.canreset, hplaces.reserved,
    ?_, fun h => ⟨?_, fun i hi hbit => ?_⟩,
    readCsr_reason_getLsbD s, rfl, rfl, rfl, rfl, rfl, rfl, rfl, fun h => ⟨fun hbit => ?_, fun i hi => ?_⟩⟩
  · show ((statusWord s).getLsbD 4 && (statusWord s).getLsbD 5) = false
    rw [hdone, hrej]
    cases s.phase <;> rfl
  · exact hplaces.busy.trans h.busyFlag_eq_false
  · exact hdone.trans (decide_eq_true (h.done_of_result_bit hi hbit))
  · have hphase : s.phase ≠ .rejected := of_decide_eq_false (hrej.symm.trans hbit)
    show s.reason.setWidth 16 = 0
    rw [h.noReason hphase]
    rfl
  · rw [readCsr_reason_getLsbD]
    exact Nat.testBit_lt_two_pow (h.reason_lt.trans_le (Nat.pow_le_pow_right (by decide) hi))

/-- Settles O56: a text that fits its buffer has a length of four bits. -/
theorem resultRegisterNumbers : Obligations.ResultRegisterNumbers := by
  intro s
  refine ⟨rfl, rfl, rfl, rfl, rfl, rfl, rfl, rfl, rfl, rfl, rfl, rfl, rfl, rfl, rfl, rfl, fun h => ?_⟩
  obtain ⟨h0, h1⟩ := h.textFits
  exact ⟨Nat.mod_eq_of_lt (by omega), Nat.mod_eq_of_lt (by omega)⟩

/-! ## `VALUE` past the payload -/

theorem evalValue_of_short {size off : Nat} {s : State} (h : addressable s < off + size) (prec : Nat) :
    evalValue size prec off s = .reject .lengthMismatch := if_neg (Nat.not_le.2 h)

/-- Settles O29: the guard of R49 comes before the field. -/
theorem valuePastPayloadRejects : Obligations.ValuePastPayloadRejects := by
  refine fun s prec off => ⟨fun h => ?_, fun h => ?_, fun h => ?_⟩
  all_goals
    rw [exec_eq_finish, evalOf, evalValue_of_short h]
    rfl

end Sys2Proof.Machine

/-! What a completed `REPORT` has in its registers: each phase's inversion, read off the committed outputs (R74, R115,
R119 to R123, R131, R156). -/

namespace Sys2Proof.Machine

/-! ## The classes -/

theorem two_le_num_iff (c : VClass) : 2 ≤ c.num ↔ c.num ≠ 1 := by cases c <;> decide

theorem five_le_num_iff (c : VClass) : 5 ≤ c.num ↔ c.num = 5 := by cases c <;> decide

/-! ## Where a report's fields stand -/

/-- The end of the value field and of delta-time, which class 1 does not have (R73, R76). -/
def numericEnd (c : VClass) (size : Nat) : Nat := if c.num = 1 then 3 + size else 5 + size

/-- Delta-time, high byte first, and 0 in class 1 (R76, R118). -/
def reportDelta (c : VClass) (s : State) (size : Nat) : Nat :=
  if c.num = 1 then 0 else (readByte s (3 + size)).toNat * 256 + (readByte s (4 + size)).toNat

theorem beValue_delta (s : State) (size : Nat) :
    beValue (readBytes s (3 + size) 2) = (readByte s (3 + size)).toNat * 256 + (readByte s (4 + size)).toNat := by
  rw [beValue_pair, show 3 + size + 1 = 4 + size by omega]

/-- `N` is `LEN - 1`, cut at 0 (R47). -/
theorem addressable_eq_sub (s : State) : addressable s = s.len.toNat - 1 := by
  unfold addressable
  split <;> omega

/-- The last payload byte is at `LEN - 2` (R47, R119). -/
theorem addressable_pred (s : State) : addressable s - 1 = s.len.toNat - 2 := by
  rw [addressable_eq_sub]
  omega

/-- The expected length from class 2 up (R74). -/
theorem expectedLength_of_two_le {c : VClass} (hc : 2 ≤ c.num) (size delta scale3 : Nat) :
    expectedLength c size delta scale3 =
      6 + size + (if delta = 0 then 0 else size) + (if c.num = 5 ∧ scale3 = 7 then 1 else 0) := by
  simp only [expectedLength, if_pos hc, five_le_num_iff]
  omega

/-! ## A completed report -/

/-- A done `REPORT` committed the results of its four phases. -/
theorem report_done {c : VClass} {s t : State} (h : exec (decodeReport c) s = .next t) (hdone : t.phase = .done) :
    ∃ hd m q v, ReportPhases c s hd m q v ∧ t = commitDone s ⟨reportResults hd m q v, BitVec.ofNat 8 q.pos⟩ := by
  rw [exec_decodeReport] at h
  obtain ⟨r, hr, rfl⟩ | ⟨k, -, rfl⟩ := finish_next h
  · obtain ⟨hd, m, q, v, phases, rfl⟩ := reportPhases_of_evalReport hr
    exact ⟨hd, m, q, v, phases, rfl⟩
  · cases hdone

namespace ReportPhases

variable {c : VClass} {s : State} {h : ReportHeader} {m : ReportNumeric} {q : ReportPrevious} {v : ReportScale}

theorem delta_eq (r : ReportPhases c s h m q v) : m.delta = reportDelta c s h.size := by
  obtain ⟨-, -, ⟨hc, hdelta, -⟩ | ⟨hc, -, hdelta, -⟩⟩ := parseNumeric_ok r.numeric
  · rw [reportDelta, if_pos hc, hdelta]
  · rw [reportDelta, if_neg hc, hdelta, beValue_delta]

theorem numeric_pos (r : ReportPhases c s h m q v) : m.pos = numericEnd c h.size := by
  obtain ⟨-, -, ⟨hc, -, hpos⟩ | ⟨hc, -, -, hpos⟩⟩ := parseNumeric_ok r.numeric
  · rw [numericEnd, if_pos hc, hpos]
  · rw [numericEnd, if_neg hc, hpos]

theorem pos_eq (r : ReportPhases c s h m q v) :
    q.pos = numericEnd c h.size + if m.delta = 0 then 0 else h.size := by
  rw [← r.numeric_pos]
  rcases parsePrevious_ok r.previous with ⟨hdelta, rfl⟩ | ⟨hdelta, -, -, -, hpos⟩
  · rw [if_pos hdelta, Nat.add_zero]
  · rw [if_neg hdelta, hpos]

theorem len_eq (r : ReportPhases c s h m q v) : s.len.toNat = expectedLength c h.size m.delta h.scale3 :=
  (validateReport_ok r.validated).1

theorem scale3_eq_seven_iff (r : ReportPhases c s h m q v) : (reportResults h m q v).scale3 = 7 ↔ h.scale3 = 7 := by
  rw [← r.scale3_toNat, ← BitVec.toNat_inj]
  rfl

theorem scale3_eq (r : ReportPhases c s h m q v) :
    h.scale3 = (if 3 ≤ c.num then (readByte s 1).toNat / 128 * 4 else 0) + (readByte s 2).toNat / 8 % 4 := by
  obtain ⟨-, -, -, rfl⟩ := parseHeader_ok r.header
  exact composedScale_eq _ _ _

/-- The scale comes from the header unless a composed 7 asks for the scale-2 byte (R119). -/
theorem scale_eq_scale3 (r : ReportPhases c s h m q v) (hscale : ¬ (4 ≤ c.num ∧ h.scale3 = 7)) :
    v.scale = h.scale3 := by
  obtain ⟨-, hresolve, -⟩ := validateReport_ok r.validated
  rcases resolveScale_ok hresolve with ⟨-, rfl⟩ | ⟨hc, h7, -⟩
  · rfl
  · exact absurd ⟨hc, h7⟩ hscale

theorem scale_of_seven (r : ReportPhases c s h m q v) (hc : 4 ≤ c.num) (h7 : h.scale3 = 7) :
    v.ext = (readByte s (s.len.toNat - 2)).toNat ∧ v.ext < 248 ∧ v.scale = v.ext + 8 := by
  obtain ⟨-, hresolve, -⟩ := validateReport_ok r.validated
  rcases resolveScale_ok hresolve with ⟨hn, -⟩ | ⟨-, -, hlt, hext, hscale⟩
  · exact absurd ⟨hc, h7⟩ hn
  · exact ⟨addressable_pred s ▸ hext, hlt, hscale⟩

theorem exporting_iff (r : ReportPhases c s h m q v) :
    h.exporting = true ↔ 2 ≤ c.num ∧ h.rate = s.params.rateExport.toNat := by
  obtain ⟨-, -, -, rfl⟩ := parseHeader_ok r.header
  simp [exportingFlag]

theorem rate_of_classOne (r : ReportPhases c s h m q v) (hc : c.num = 1) : h.rate = 0 := by
  obtain ⟨-, -, -, rfl⟩ := parseHeader_ok r.header
  exact if_pos hc

end ReportPhases

/-- Settles O36: the cursor is the end of the fields read, which fits its register. -/
theorem reportCursorEnds : Obligations.ReportCursorEnds := by
  intro c s t h hdone
  obtain ⟨hd, m, q, v, r, rfl⟩ := report_done h hdone
  simp only [commitDone_pos, commitDone_res, r.pos_toNat, r.size_toNat, r.delta_eq_zero_iff, two_le_num_iff]
  refine ⟨?_, r.pos_le⟩
  rw [r.pos_eq, numericEnd]
  split_ifs <;> omega

/-- Settles O39: the exact comparison of `VALIDATE`, in terms of the registers. -/
theorem reportDoneHasExpectedLength : Obligations.ReportDoneHasExpectedLength := by
  intro c s t h hdone
  obtain ⟨hd, m, q, v, r, rfl⟩ := report_done h hdone
  simp only [commitDone_res, r.size_toNat, r.delta_eq_zero_iff, r.scale3_eq_seven_iff, ← five_le_num_iff]
  exact r.len_eq

/-- Settles O40: the index looked up is the one committed, and a legal type is at least 1. -/
theorem reportDoneIsResolved : Obligations.ReportDoneIsResolved := by
  intro c s t h hdone
  obtain ⟨hd, m, q, v, r, rfl⟩ := report_done h hdone
  obtain ⟨-, -, hreg⟩ := validateReport_ok r.validated
  have hqt := r.qt_range
  simp only [commitDone_res, r.flatidx_toInt, r.qtype_toNat, r.scale_toNat]
  refine ⟨rfl, hreg, ?_⟩
  rw [flatIndex]
  omega

/-- Settles O41: the flags are the header's rate and delta-time, compared. -/
theorem reportDoneFlags : Obligations.ReportDoneFlags := by
  intro c s t h hdone
  obtain ⟨hd, m, q, v, r, rfl⟩ := report_done h hdone
  refine ⟨?_, ?_, ?_, r.placeholder⟩
  · rw [← BitVec.toNat_inj, commitDone_res, r.rate_toNat]
    exact r.exporting_iff
  · rw [commitDone_res, r.hasprev_eq, decide_eq_true_iff]
  · rintro rfl
    have hdelta := r.delta_eq.trans (if_pos rfl)
    refine ⟨BitVec.eq_of_toNat_eq ?_, r.delta_eq_zero_iff.2 hdelta⟩
    exact r.rate_toNat.trans (r.rate_of_classOne rfl)

/-- Settles O44: the last byte is delta-time's low byte, or the previous value's. -/
theorem versionFourScaleTwoAlias : Obligations.VersionFourScaleTwoAlias := by
  intro s t h hdone h7
  obtain ⟨hd, m, q, v, r, rfl⟩ := report_done (c := .v4) h hdone
  obtain ⟨hext, hlt, hscale⟩ := r.scale_of_seven (by decide) (r.scale3_eq_seven_iff.1 h7)
  have hlen := r.len_eq
  rw [expectedLength_of_two_le (by decide), if_neg (c := VClass.v4.num = 5 ∧ _) (fun h => absurd h.1 (by decide)),
    Nat.add_zero] at hlen
  have hextReg : (reportResults hd m q v).ext.toNat = v.ext := Nat.mod_eq_of_lt (by omega)
  simp only [commitDone_res, r.size_toNat, r.delta_eq_zero_iff, ne_eq, ← BitVec.toNat_inj, hextReg, r.scale_toNat,
    hscale]
  refine ⟨fun h0 => ?_, fun h0 => ?_⟩
  · have hdelta : m.delta = (readByte s (3 + hd.size)).toNat * 256 + (readByte s (4 + hd.size)).toNat := r.delta_eq
    rw [if_pos h0] at hlen
    rw [show s.len.toNat - 2 = 4 + hd.size by omega] at hext
    have hzero : v.ext = 0 := by omega
    rw [hzero]
    exact ⟨rfl, rfl⟩
  · rw [if_neg h0] at hlen
    rw [show s.len.toNat - 2 = 4 + 2 * hd.size by omega] at hext
    exact ⟨hext, by omega⟩

/-! ## The packed scale read back (R156) -/

/-- Up to scale 7 the classes from 3 up pack it whole, at bit 3. -/
theorem packb_of_le_seven {c : VClass} {sc : Nat} {s t : State} (hc : 3 ≤ c.num) (hsc : sc ≤ 7)
    (h : exec (decodePackScale sc c) s = .next t) : t.res.packb = BitVec.ofNat 16 (sc * 8) := by
  have heval : evalOf (decodePackScale sc c) s = packDone s 1 (requestByte 3 sc) 0 := by
    cases c with
    | v1 => exact absurd hc (by decide)
    | v2 => exact absurd hc (by decide)
    | v3 => rfl
    | v4 => exact evalPackScaleV4_of_le_seven hsc s
    | v5 => exact evalPackScaleV4_of_le_seven hsc s
  rw [exec_eq_finish, heval, requestByte_of_lt (by omega),
    finish_packDone (packb := BitVec.ofNat 16 (sc * 8)) (by rw [Nat.zero_mul, Nat.zero_add])] at h
  cases h
  rfl

theorem extract_packed_scale {sc : Nat} (hsc : sc ≤ 7) : ((BitVec.ofNat 16 (sc * 8)).extractLsb' 3 3).toNat = sc := by
  rw [BitVec.extractLsb'_toNat, BitVec.toNat_ofNat, Nat.shiftRight_eq_div_pow]
  omega

/-- The second packed byte of a scale from 8 up is `scale - 8`. -/
theorem second_packed_byte {sc : Nat} {s t : State} (hlo : 8 ≤ sc) (hhi : sc ≤ 263)
    (h : exec (.packScaleV4 sc) s = .next t) : (t.res.packb.extractLsb' 8 8).toNat = sc - 8 := by
  rw [(packScaleV4Completes s sc).2.1 hlo hhi] at h
  cases h
  rw [BitVec.extractLsb'_append_eq_left, BitVec.toNat_ofNat]
  omega

/-- Settles O55: the report side adds the 8 that packing took, and takes the composed scale as it is. -/
theorem packedScaleReadsBack : Obligations.PackedScaleReadsBack := by
  refine ⟨fun s t u v sc hlo hhi ht hv hdone h7 hbyte => ?_, fun c s t u v sc hc hsc ht hv hdone hbits => ?_⟩
  · obtain ⟨hd, m, q, w, r, rfl⟩ := report_done (c := .v5) hv hdone
    obtain ⟨hext, -, hscale⟩ := r.scale_of_seven (by decide) (r.scale3_eq_seven_iff.1 h7)
    rw [hbyte, second_packed_byte hlo (by omega) ht] at hext
    rw [commitDone_res, r.scale_toNat]
    omega
  · have hle : sc ≤ 7 := by omega
    obtain ⟨hd, m, q, w, r, rfl⟩ := report_done hv hdone
    have hscale3 := r.scale3_eq
    rw [if_pos hc, hbits, packb_of_le_seven hc hle ht, extract_packed_scale hle] at hscale3
    rw [commitDone_res, r.scale_toNat, r.scale_eq_scale3, hscale3]
    rintro ⟨h4, h7⟩
    rcases hsc with hlt | ⟨-, rfl⟩
    · omega
    · exact absurd h4 (by decide)

end Sys2Proof.Machine

/-! `REPORT` run forward: from a legal header, what each phase answers on the payload's length and fields, and so which
reports complete, reject, or have no outcome (R112 to R129, R166). -/

namespace Sys2Proof.Machine

/-! ## The header -/

/-- The fields of a header that `PARSE_HEADER` accepts, as arithmetic on its two bytes (R71, R72, R112 to R116). -/
structure LegalHeader (c : VClass) (s : State) (h : ReportHeader) : Prop where
  bytes : 3 ≤ addressable s
  typeLegal : quantityTypeLegal c h.qt
  sizeLegal : elementSizeLegal h.size
  qt : h.qt = (readByte s 1).toNat % 32
  rate : h.rate = if c.num = 1 then 0 else (readByte s 1).toNat / 32 % 4
  exporting : h.exporting = exportingFlag s.params c h.rate
  size : h.size = (readByte s 2).toNat % 8
  prec : h.prec = (readByte s 2).toNat / 32
  scale3 : h.scale3 = (if 3 ≤ c.num then (readByte s 1).toNat / 128 * 4 else 0) + (readByte s 2).toNat / 8 % 4

theorem LegalHeader.parse {c : VClass} {s : State} {h : ReportHeader} (l : LegalHeader c s h) :
    parseHeader c s = .ok h := by
  obtain ⟨qt, rate, exporting, size, prec, scale3⟩ := h
  obtain ⟨hn, htype, hsize, hqt, hrate, hexporting, hb2, hprec, hscale3⟩ := l
  dsimp only at *
  subst hqt hrate hexporting hb2 hprec hscale3
  simpa only [qtypeField_eq, rateField_eq, sizeField_eq, precField_eq, composedScale_eq] using
    parseHeader_of_legal hn (qtypeField_eq (readByte s 1) ▸ htype) (sizeField_eq (readByte s 2) ▸ hsize)

theorem exists_legalHeader {c : VClass} {s : State} {qt size scale3 : Nat} (hn : 3 ≤ addressable s)
    (htype : quantityTypeLegal c qt) (hz : elementSizeLegal size) (hqt : qt = (readByte s 1).toNat % 32)
    (hsize : size = (readByte s 2).toNat % 8)
    (hscale3 : scale3 = (if 3 ≤ c.num then (readByte s 1).toNat / 128 * 4 else 0) + (readByte s 2).toNat / 8 % 4) :
    ∃ h, LegalHeader c s h ∧ h.qt = qt ∧ h.size = size ∧ h.scale3 = scale3 :=
  ⟨⟨qt, if c.num = 1 then 0 else (readByte s 1).toNat / 32 % 4, exportingFlag s.params c _, size,
    (readByte s 2).toNat / 32, scale3⟩, ⟨hn, htype, hz, hqt, rfl, rfl, hsize, rfl, hscale3⟩, rfl, rfl, rfl⟩

theorem parseHeader_of_short {c : VClass} {s : State} (h : addressable s < 3) :
    parseHeader c s = .reject .lengthMismatch := if_pos h

theorem parseHeader_of_illegalType {c : VClass} {s : State} (hn : 3 ≤ addressable s)
    (hq : ¬ quantityTypeLegal c (qtypeField (readByte s 1))) :
    parseHeader c s = .reject (.malformedField .quantityType) := by
  rw [parseHeader, if_neg (Nat.not_lt.2 hn), if_pos hq]

theorem parseHeader_of_illegalSize {c : VClass} {s : State} (hn : 3 ≤ addressable s)
    (hq : quantityTypeLegal c (qtypeField (readByte s 1))) (hz : ¬ elementSizeLegal (sizeField (readByte s 2))) :
    parseHeader c s = .reject (.malformedField .elementSize) := by
  rw [parseHeader, if_neg (Nat.not_lt.2 hn), if_neg (not_not.2 hq), if_neg (not_not.2 (rateField_legal c _)), if_pos hz]

/-- A header fault ends the report (R124). -/
theorem exec_report_of_header_reject {c : VClass} {s : State} {k : ErrorKind} (h : parseHeader c s = .reject k) :
    exec (decodeReport c) s = .next (enterRejected s k) := by
  rw [exec_decodeReport, evalReport, h, bind_reject, finish_reject]

/-- Settles O37: the checks of `PARSE_HEADER` in their order. -/
theorem reportHeaderFaults : Obligations.ReportHeaderFaults := by
  rintro c s qt size rfl rfl
  rw [← qtypeField_eq, ← sizeField_eq]
  refine ⟨fun hn => ?_, fun hn hq => ?_, fun hn h1 h5 hz => ?_⟩
  · exact exec_report_of_header_reject (parseHeader_of_short hn)
  · exact exec_report_of_header_reject (parseHeader_of_illegalType hn hq)
  · have hz : ¬ elementSizeLegal (sizeField (readByte s 2)) := by simpa [elementSizeLegal] using hz
    exact exec_report_of_header_reject (parseHeader_of_illegalSize hn ⟨h1, h5⟩ hz)

/-! ## The value field and delta-time -/

theorem parseNumeric_of_short {c : VClass} {h : ReportHeader} {s : State} (hn : addressable s < 3 + h.size) :
    parseNumeric c h s = .reject .lengthMismatch := if_pos hn

theorem parseNumeric_of_unspecified {c : VClass} {h : ReportHeader} {s : State} {r : Refusal}
    (hn : 3 + h.size ≤ addressable s) (hraw : signedField s.params (readBytes s 3 h.size) = .unspecified r) :
    parseNumeric c h s = .unspecified r := by
  rw [parseNumeric, if_neg (Nat.not_lt.2 hn), hraw, bind_unspecified]

/-- With a value, the phase is the guard of delta-time (G3). -/
theorem parseNumeric_of_value {c : VClass} {h : ReportHeader} {s : State} {raw : Int} (hn : 3 + h.size ≤ addressable s)
    (hraw : signedField s.params (readBytes s 3 h.size) = .ok raw) :
    parseNumeric c h s =
      if addressable s < numericEnd c h.size then .reject .lengthMismatch
      else .ok ⟨raw, reportDelta c s h.size, numericEnd c h.size⟩ := by
  rw [parseNumeric, if_neg (Nat.not_lt.2 hn), hraw, bind_ok, parseDelta, beValue_delta, numericEnd, reportDelta,
    show 3 + h.size + 2 = 5 + h.size by omega]
  by_cases hc : c.num = 1
  · rw [if_pos hc, if_pos hc, if_pos hc, if_neg (Nat.not_lt.2 hn)]
  · rw [if_neg hc, if_neg hc, if_neg hc]

/-! ## The previous value -/

theorem parsePrevious_of_short {h : ReportHeader} {m : ReportNumeric} {s : State} (hdelta : m.delta ≠ 0)
    (hn : addressable s < m.pos + h.size) : parsePrevious h m s = .reject .lengthMismatch := by
  rw [parsePrevious, if_neg hdelta, if_pos hn]

theorem parsePrevious_of_unspecified {h : ReportHeader} {m : ReportNumeric} {s : State} {r : Refusal}
    (hdelta : m.delta ≠ 0)
    (hn : m.pos + h.size ≤ addressable s)
    (hpraw : signedField s.params (readBytes s m.pos h.size) = .unspecified r) :
    parsePrevious h m s = .unspecified r := by
  rw [parsePrevious, if_neg hdelta, if_neg (Nat.not_lt.2 hn), hpraw, bind_unspecified]

/-- Where the previous value is there, or not asked for, the phase gives it, or its placeholder (R121). -/
theorem parsePrevious_of_value {h : ReportHeader} {m : ReportNumeric} {s : State} {praw : Int}
    (hn : m.delta ≠ 0 → m.pos + h.size ≤ addressable s)
    (hpraw : if m.delta = 0 then praw = 0 else signedField s.params (readBytes s m.pos h.size) = .ok praw) :
    ∃ pos, parsePrevious h m s = .ok ⟨praw, decide (m.delta ≠ 0), pos⟩ := by
  by_cases hdelta : m.delta = 0
  · rw [if_pos hdelta] at hpraw
    exact ⟨m.pos, by simp [parsePrevious, hdelta, hpraw]⟩
  · rw [if_neg hdelta] at hpraw
    exact ⟨m.pos + h.size, by simp [parsePrevious, hdelta, hpraw, Nat.not_lt.2 (hn hdelta)]⟩

/-! ## Reports of the expected length -/

/-- The expected length holds every field of the report (R74). -/
theorem fields_fit_of_expectedLength {c : VClass} {s : State} {size scale3 : Nat}
    (hlen : s.len.toNat = expectedLength c size (reportDelta c s size) scale3) :
    3 + size ≤ addressable s ∧ numericEnd c size ≤ addressable s ∧
      (reportDelta c s size ≠ 0 → numericEnd c size + size ≤ addressable s) := by
  rw [addressable_eq_sub, hlen, expectedLength, numericEnd]
  by_cases hc : c.num = 1
  · rw [if_pos hc]
    exact ⟨by omega, by omega, fun hdelta => absurd (if_pos hc) hdelta⟩
  · rw [if_neg hc, if_pos ((two_le_num_iff c).2 hc)]
    refine ⟨by omega, by omega, fun hdelta => ?_⟩
    rw [if_neg hdelta]
    omega

/-- A report whose header is legal, whose length is the expected one and whose fields have values is decided by its
scale and the registry (R119, R120, R123). -/
theorem evalReport_of_fields {c : VClass} {s : State} {h : ReportHeader} {raw praw : Int} (l : LegalHeader c s h)
    (hlen : s.len.toNat = expectedLength c h.size (reportDelta c s h.size) h.scale3)
    (hraw : signedField s.params (readBytes s 3 h.size) = .ok raw)
    (hpraw : if reportDelta c s h.size = 0 then praw = 0
      else signedField s.params (readBytes s (numericEnd c h.size) h.size) = .ok praw) :
    ∃ npos pos, evalReport c s =
      (resolveScale c h.scale3 s).bind fun v =>
        if regHas s.params (flatIndex h.qt v.scale) then
          .ok ⟨reportResults h ⟨raw, reportDelta c s h.size, npos⟩ ⟨praw, decide (reportDelta c s h.size ≠ 0), pos⟩ v,
            BitVec.ofNat 8 pos⟩
        else .reject .unresolvedIndex := by
  obtain ⟨hvalue, hend, hprev⟩ := fields_fit_of_expectedLength hlen
  have hnumeric : parseNumeric c h s = .ok ⟨raw, reportDelta c s h.size, numericEnd c h.size⟩ := by
    rw [parseNumeric_of_value hvalue hraw, if_neg (Nat.not_lt.2 hend)]
  obtain ⟨pos, hprevious⟩ :=
    parsePrevious_of_value (h := h) (m := ⟨raw, reportDelta c s h.size, numericEnd c h.size⟩) hprev hpraw
  refine ⟨numericEnd c h.size, pos, ?_⟩
  simp only [evalReport, l.parse, hnumeric, hprevious, bind_ok, validateReport, hlen, ne_eq, not_true, if_false]
  cases resolveScale c h.scale3 s with
  | ok v => rw [bind_ok, bind_ok]; split <;> rfl
  | reject k => rfl
  | unspecified r => rfl

/-- Such a report completes when its scale resolves and the registry holds its index. -/
theorem exec_report_completes {c : VClass} {s : State} {h : ReportHeader} {raw praw : Int} {v : ReportScale}
    (l : LegalHeader c s h) (hlen : s.len.toNat = expectedLength c h.size (reportDelta c s h.size) h.scale3)
    (hraw : signedField s.params (readBytes s 3 h.size) = .ok raw)
    (hpraw : if reportDelta c s h.size = 0 then praw = 0
      else signedField s.params (readBytes s (numericEnd c h.size) h.size) = .ok praw)
    (hscale : resolveScale c h.scale3 s = .ok v) (hreg : regHas s.params (flatIndex h.qt v.scale) = true) :
    ∃ pos, exec (decodeReport c) s = .next { s with
      phase := .done, reason := 0, pos := pos,
      res := { Results.zero with
        qtype := BitVec.ofNat 5 h.qt, rate := BitVec.ofNat 2 h.rate, size := BitVec.ofNat 3 h.size,
        prec := BitVec.ofNat 3 h.prec, scale3 := BitVec.ofNat 3 h.scale3, scale := BitVec.ofNat 8 v.scale,
        ext := BitVec.ofNat 8 v.ext, delta := BitVec.ofNat 16 (reportDelta c s h.size), raw := BitVec.ofInt 64 raw,
        praw := BitVec.ofInt 64 praw, flatidx := BitVec.ofInt 16 (flatIndex h.qt v.scale), t0 := render raw h.prec,
        f0 := toFloat raw h.prec, t1 := if reportDelta c s h.size = 0 then [] else render praw h.prec,
        f1 := if reportDelta c s h.size = 0 then 0 else toFloat praw h.prec, exporting := h.exporting,
        hasprev := decide (reportDelta c s h.size ≠ 0) } } := by
  obtain ⟨npos, pos, heval⟩ := evalReport_of_fields l hlen hraw hpraw
  rw [hscale, bind_ok, if_pos hreg] at heval
  refine ⟨BitVec.ofNat 8 pos, ?_⟩
  rw [exec_decodeReport, heval]
  by_cases hdelta : reportDelta c s h.size = 0 <;> simp [commitDone, reportResults, hdelta]

/-- A composed scale that is not the escape 7 stands for itself (R119). -/
theorem resolveScale_of_plain {c : VClass} {scale3 : Nat} (h : ¬ (4 ≤ c.num ∧ scale3 = 7)) (s : State) :
    resolveScale c scale3 s = .ok ⟨0, scale3⟩ := if_neg h

/-- The escape takes the last payload byte, below 248, plus 8 (R119). -/
theorem resolveScale_of_byte {c : VClass} {s : State} (hc : 4 ≤ c.num)
    (h : (readByte s (s.len.toNat - 2)).toNat < 248) :
    resolveScale c 7 s =
      .ok ⟨(readByte s (s.len.toNat - 2)).toNat, (readByte s (s.len.toNat - 2)).toNat + 8⟩ := by
  rw [resolveScale, if_pos ⟨hc, rfl⟩, addressable_pred, if_neg (Nat.not_le.2 h)]

theorem resolveScale_of_overflow {c : VClass} {s : State} (hc : 4 ≤ c.num)
    (h : 248 ≤ (readByte s (s.len.toNat - 2)).toNat) : resolveScale c 7 s = .unspecified .scale2Overflow := by
  rw [resolveScale, if_pos ⟨hc, rfl⟩, addressable_pred, if_pos h]

/-- Every scale up to 7 of a type up to 5 is in the registry (R54 (a)). -/
theorem regHas_of_plain (p : Params) {qt scale : Nat} (h1 : 1 ≤ qt) (h5 : qt ≤ 5) (hscale : scale < 8) :
    regHas p (flatIndex qt scale) = true := by
  refine regHas_low p ?_ ?_ <;> rw [flatIndex] <;> omega

/-- Settles O33: class 1 has no delta-time, so every placeholder stands. -/
theorem reportV1Completes : Obligations.ReportV1Completes := by
  intro s qt size prec scale3 raw hqt hsize hprec hscale3 h1 h3 hz hlen hraw
  have l : LegalHeader .v1 s ⟨qt, 0, false, size, prec, scale3⟩ :=
    ⟨by rw [addressable_of_len (n := 3 + size) (by omega)]; omega, ⟨h1, h3⟩, hz, hqt, rfl, rfl, hsize, hprec,
      by simpa [VClass.num] using hscale3⟩
  exact exec_report_completes (praw := 0) l hlen hraw rfl (resolveScale_of_plain (fun h => absurd h.1 (by decide)) s)
    (regHas_of_plain (qt := qt) (scale := scale3) _ h1 (by omega) (by omega))

/-- A length figure from 4 up makes the header addressable (R47, R74). -/
theorem header_addressable_of_len {s : State} (h : 4 ≤ s.len.toNat) : 3 ≤ addressable s := by
  rw [addressable_eq_sub]
  omega

theorem exportingFlag_of_two_le {c : VClass} (hc : 2 ≤ c.num) (p : Params) (rate : Nat) :
    exportingFlag p c rate = decide (rate = p.rateExport.toNat) := by
  rw [exportingFlag, decide_eq_true hc, Bool.true_and]

/-- From class 2 up a report has a rate type and delta-time. -/
theorem exec_report_completes_from_two {c : VClass} (hc : 2 ≤ c.num) {s : State}
    {qt rate size prec scale3 delta : Nat} {v : ReportScale} {raw praw : Int}
    (hqt : qt = (readByte s 1).toNat % 32) (hrate : rate = (readByte s 1).toNat / 32 % 4)
    (hsize : size = (readByte s 2).toNat % 8) (hprec : prec = (readByte s 2).toNat / 32)
    (hscale3 : scale3 = (if 3 ≤ c.num then (readByte s 1).toNat / 128 * 4 else 0) + (readByte s 2).toNat / 8 % 4)
    (hdelta : delta = (readByte s (3 + size)).toNat * 256 + (readByte s (4 + size)).toNat)
    (htype : quantityTypeLegal c qt) (hz : elementSizeLegal size)
    (hlen : s.len.toNat = 6 + size + (if delta = 0 then 0 else size) + (if c.num = 5 ∧ scale3 = 7 then 1 else 0))
    (hraw : signedField s.params (readBytes s 3 size) = .ok raw)
    (hpraw : if delta = 0 then praw = 0 else signedField s.params (readBytes s (5 + size) size) = .ok praw)
    (hscale : resolveScale c scale3 s = .ok v) (hreg : regHas s.params (flatIndex qt v.scale) = true) :
    ∃ pos, exec (decodeReport c) s = .next { s with
      phase := .done, reason := 0, pos := pos,
      res := { Results.zero with
        qtype := BitVec.ofNat 5 qt, rate := BitVec.ofNat 2 rate, size := BitVec.ofNat 3 size,
        prec := BitVec.ofNat 3 prec, scale3 := BitVec.ofNat 3 scale3, scale := BitVec.ofNat 8 v.scale,
        ext := BitVec.ofNat 8 v.ext, delta := BitVec.ofNat 16 delta, raw := BitVec.ofInt 64 raw,
        praw := BitVec.ofInt 64 praw, flatidx := BitVec.ofInt 16 (flatIndex qt v.scale), t0 := render raw prec,
        f0 := toFloat raw prec,
        t1 := if delta = 0 then [] else render praw prec, f1 := if delta = 0 then 0 else toFloat praw prec,
        exporting := decide (rate = s.params.rateExport.toNat), hasprev := decide (delta ≠ 0) } } := by
  have hne : c.num ≠ 1 := (two_le_num_iff c).1 hc
  have hn : 3 ≤ addressable s := header_addressable_of_len (by omega)
  have l : LegalHeader c s ⟨qt, rate, exportingFlag s.params c rate, size, prec, scale3⟩ :=
    ⟨hn, htype, hz, hqt, hrate.trans (if_neg hne).symm, rfl, hsize, hprec, hscale3⟩
  have hd : reportDelta c s size = delta := (if_neg hne).trans hdelta.symm
  have hend : numericEnd c size = 5 + size := if_neg hne
  have completes := exec_report_completes (raw := raw) (praw := praw) (v := v) l
  simp only [hd, hend, exportingFlag_of_two_le hc] at completes
  exact completes (hlen.trans (expectedLength_of_two_le hc _ _ _).symm) hraw hpraw hscale hreg

/-- Settles O34: classes 2 and 3 are one report with two composed scales. -/
theorem reportV2AndV3Complete : Obligations.ReportV2AndV3Complete := by
  intro s qt rate size prec low high delta raw praw hqt hrate hhigh hsize hprec hlow hdelta h1 h3 hz hlen hraw hpraw i
    scale3 hi
  have completes (c : VClass) (hc2 : 2 ≤ c.num) (hc3 : c.num ≤ 3)
      (hscale3 : scale3 = (if 3 ≤ c.num then (readByte s 1).toNat / 128 * 4 else 0) + (readByte s 2).toNat / 8 % 4) :=
    have hlt : scale3 < 8 := by
      have := (readByte s 1).isLt
      split at hscale3 <;> omega
    exec_report_completes_from_two (v := ⟨0, scale3⟩) hc2 hqt hrate hsize hprec hscale3 hdelta
      ⟨h1, by rwa [maxQuantityType, if_pos hc3]⟩ hz
      (by rw [hlen, if_neg (c := c.num = 5 ∧ _) (by omega), Nat.add_zero]) hraw hpraw
      (resolveScale_of_plain (by omega) s) (regHas_of_plain _ h1 (by omega) hlt)
  rcases hi with ⟨rfl, rfl⟩ | ⟨rfl, rfl⟩
  · exact completes .v2 (by decide) (by decide) (by rw [hlow, if_neg (by decide), Nat.zero_add])
  · exact completes .v3 (by decide) (by decide) (by rw [hhigh, hlow, if_pos (by decide)])

/-- The resolved scale of a report of class 4 or 5, from its last byte or from its header (R119). -/
theorem resolveScale_eq_ok {c : VClass} (hc : 4 ≤ c.num) {s : State} {scale3 ext scale : Nat}
    (h : if scale3 = 7 then ext = (readByte s (s.len.toNat - 2)).toNat ∧ ext < 248 ∧ scale = ext + 8
      else ext = 0 ∧ scale = scale3) : resolveScale c scale3 s = .ok ⟨ext, scale⟩ := by
  split at h
  · next h7 =>
    obtain ⟨rfl, hlt, rfl⟩ := h
    rw [h7]
    exact resolveScale_of_byte hc hlt
  · next h7 =>
    obtain ⟨rfl, rfl⟩ := h
    exact resolveScale_of_plain (fun h => h7 h.2) s

/-- Settles O35: classes 4 and 5 are one report of two lengths. -/
theorem reportV4AndV5Complete : Obligations.ReportV4AndV5Complete := by
  intro s qt rate size prec scale3 delta ext scale raw praw hqt hrate hsize hprec hscale3 hdelta h1 h5 hz hraw hpraw
    hscale hreg i hi
  have completes (c : VClass) (hc4 : 4 ≤ c.num)
      (hlen : s.len.toNat = 6 + size + (if delta = 0 then 0 else size) + (if c.num = 5 ∧ scale3 = 7 then 1 else 0)) :=
    exec_report_completes_from_two (c := c) (v := ⟨ext, scale⟩) (by omega) hqt hrate hsize hprec
      (by rw [hscale3, if_pos (by omega)]) hdelta ⟨h1, by rwa [maxQuantityType, if_neg (by omega)]⟩ hz hlen hraw hpraw
      (resolveScale_eq_ok hc4 hscale) hreg
  rcases hi with ⟨rfl, hlen⟩ | ⟨rfl, hlen⟩
  · exact completes .v4 (by decide)
      (by rw [hlen, if_neg (c := VClass.v4.num = 5 ∧ _) (fun h => absurd h.1 (by decide)), Nat.add_zero])
  · exact completes .v5 (by decide) (by simpa [VClass.num] using hlen)

/-! ## Reports that do not complete -/

theorem exec_report_of_reject {c : VClass} {s : State} {k : ErrorKind} (h : evalReport c s = .reject k) :
    exec (decodeReport c) s = .next (enterRejected s k) := by
  rw [exec_decodeReport, h, finish_reject]

theorem exec_report_of_unspecified {c : VClass} {s : State} {r : Refusal} (h : evalReport c s = .unspecified r) :
    exec (decodeReport c) s = .refused r := by
  rw [exec_decodeReport, h, finish_unspecified]

theorem validateReport_of_wrong_length {c : VClass} {h : ReportHeader} {m : ReportNumeric} {s : State}
    (hlen : s.len.toNat ≠ expectedLength c h.size m.delta h.scale3) :
    validateReport c h m s = .reject .lengthMismatch := if_pos hlen

/-- With a legal header and values in the fields that are there, a wrong length is found by a guard or by the exact
comparison (R120). -/
theorem evalReport_of_wrong_length {c : VClass} {s : State} {h : ReportHeader} (l : LegalHeader c s h)
    (hraw : 3 + h.size ≤ addressable s → ∃ raw, signedField s.params (readBytes s 3 h.size) = .ok raw)
    (hpraw : reportDelta c s h.size ≠ 0 → numericEnd c h.size + h.size ≤ addressable s →
      ∃ praw, signedField s.params (readBytes s (numericEnd c h.size) h.size) = .ok praw)
    (hlen : s.len.toNat ≠ expectedLength c h.size (reportDelta c s h.size) h.scale3) :
    evalReport c s = .reject .lengthMismatch := by
  by_cases hvalue : addressable s < 3 + h.size
  · simp only [evalReport, l.parse, parseNumeric_of_short hvalue, bind_ok, bind_reject]
  obtain ⟨raw, hraw⟩ := hraw (Nat.le_of_not_lt hvalue)
  have hnumeric := parseNumeric_of_value (c := c) (Nat.le_of_not_lt hvalue) hraw
  by_cases hend : addressable s < numericEnd c h.size
  · rw [if_pos hend] at hnumeric
    simp only [evalReport, l.parse, hnumeric, bind_ok, bind_reject]
  rw [if_neg hend] at hnumeric
  by_cases hshort : reportDelta c s h.size ≠ 0 ∧ addressable s < numericEnd c h.size + h.size
  · obtain ⟨hdelta, hshort⟩ := hshort
    have hprevious := parsePrevious_of_short (m := ⟨raw, reportDelta c s h.size, numericEnd c h.size⟩) hdelta hshort
    simp only [evalReport, l.parse, hnumeric, hprevious, bind_ok, bind_reject]
  have hfits (hdelta : reportDelta c s h.size ≠ 0) : numericEnd c h.size + h.size ≤ addressable s :=
    Nat.le_of_not_lt fun hn => hshort ⟨hdelta, hn⟩
  obtain ⟨praw, hpraw⟩ : ∃ praw, if reportDelta c s h.size = 0 then praw = 0
      else signedField s.params (readBytes s (numericEnd c h.size) h.size) = .ok praw := by
    split
    · exact ⟨0, rfl⟩
    · next hdelta => exact hpraw hdelta (hfits hdelta)
  obtain ⟨pos, hprevious⟩ :=
    parsePrevious_of_value (m := ⟨raw, reportDelta c s h.size, numericEnd c h.size⟩) hfits hpraw
  have hvalidate := validateReport_of_wrong_length (m := ⟨raw, reportDelta c s h.size, numericEnd c h.size⟩) hlen
  simp only [evalReport, l.parse, hnumeric, hprevious, hvalidate, bind_ok, bind_reject]

/-- Settles O38: the fields and figures of the statement are those of the header. -/
theorem reportWrongLengthRejects : Obligations.ReportWrongLengthRejects := by
  intro c s qt size delta scale3 hqt hsize hdelta hscale3 hn h1 h5 hz hraw hpraw hlen
  obtain ⟨h, l, rfl, rfl, rfl⟩ := exists_legalHeader hn ⟨h1, h5⟩ hz hqt hsize hscale3
  obtain rfl : delta = reportDelta c s h.size := hdelta
  refine exec_report_of_reject (evalReport_of_wrong_length l hraw (fun hne hfits => ?_) ?_)
  · have hend : numericEnd c h.size = 5 + h.size := if_neg fun hc => hne (if_pos hc)
    rw [hend] at hfits ⊢
    exact hpraw hne (by omega)
  · simpa only [expectedLength, five_le_num_iff] using hlen

/-- Settles O42: past the length check the report is decided by its scale-2 byte and the registry. -/
theorem reportScaleTwoOutcomes : Obligations.ReportScaleTwoOutcomes := by
  intro s qt size delta scale3 ext raw praw i hqt hsize hscale3 hdelta hext h1 h5 hz h7 hraw hpraw hi
  have outcomes (c : VClass) (hc4 : 4 ≤ c.num)
      (hlen : s.len.toNat = 6 + size + (if delta = 0 then 0 else size) + (if c.num = 5 ∧ scale3 = 7 then 1 else 0)) :
      (248 ≤ ext → exec (decodeReport c) s = .refused .scale2Overflow) ∧
      (ext < 248 → regHas s.params (((qt : Int) - 1) * 16 + (ext + 8)) = false →
        exec (decodeReport c) s = .next (enterRejected s .unresolvedIndex)) := by
    have hne : c.num ≠ 1 := by omega
    have htype : quantityTypeLegal c qt := ⟨h1, by rwa [maxQuantityType, if_neg (by omega)]⟩
    obtain ⟨h, l, rfl, rfl, hh7⟩ := exists_legalHeader (header_addressable_of_len (by omega)) htype hz hqt hsize
      (c := c) (scale3 := scale3) (by rwa [if_pos (by omega)])
    rw [h7] at hh7
    have hd : reportDelta c s h.size = delta := (if_neg hne).trans hdelta.symm
    have hend : numericEnd c h.size = 5 + h.size := if_neg hne
    obtain ⟨npos, pos, heval⟩ := evalReport_of_fields (raw := raw) (praw := praw) l
      (by rw [hd, hh7, expectedLength_of_two_le (by omega), hlen, h7]) hraw (by rwa [hd, hend])
    rw [hh7] at heval
    subst hext
    refine ⟨fun hover => ?_, fun hlt hreg => ?_⟩
    · rw [resolveScale_of_overflow hc4 hover] at heval
      exact exec_report_of_unspecified heval
    · have hreg : regHas s.params (flatIndex h.qt ((readByte s (s.len.toNat - 2)).toNat + 8)) = false := hreg
      rw [resolveScale_of_byte hc4 hlt, bind_ok, hreg] at heval
      exact exec_report_of_reject heval
  rcases hi with ⟨rfl, hlen⟩ | ⟨rfl, hlen⟩
  · exact outcomes .v4 (by decide)
      (by rw [hlen, if_neg (c := VClass.v4.num = 5 ∧ _) (fun h => absurd h.1 (by decide)), Nat.add_zero])
  · exact outcomes .v5 (by decide) (by rw [hlen, if_pos (c := VClass.v5.num = 5 ∧ _) ⟨rfl, h7⟩]; omega)

/-! ## Four-byte fields without a value (R101) -/

/-- With `SIZE4_MSB = Refuse` a 4-byte field has a value exactly when its first byte's top bit is clear. -/
theorem signedField_refuse {s : State} (hp : s.params.size4Msb = .refuse) (k : Nat) :
    ((readByte s k).msb = true → signedField s.params (readBytes s k 4) = .unspecified .size4Msb) ∧
    ((readByte s k).msb = false → ∃ v, signedField s.params (readBytes s k 4) = .ok v) := by
  have hfield : FieldWord (readBytes s k 4) _ := .four _ _ _ _
  rw [← msb_append_four _ (readByte s (k + 1)) (readByte s (k + 2)) (readByte s (k + 3))]
  exact ⟨fun hw => hfield.signedField_of_refuse hw hp, fun hw => ⟨_, hfield.signedField_of_msb_false hw s.params⟩⟩

/-- Settles O43: each field is read under its own guard, before the length is compared. -/
theorem reportRefusesTopBitField : Obligations.ReportRefusesTopBitField := by
  intro c s qt hqt hsize h1 h5 hp
  have header (hn : 3 ≤ addressable s) := exists_legalHeader hn (c := c) ⟨h1, h5⟩ (.inr (.inr rfl)) hqt hsize.symm rfl
  refine ⟨fun hn hmsb => ?_, fun hn hmsb hc hdelta hmsb' => ?_⟩
  · obtain ⟨h, l, -, hsize, -⟩ := header (by omega)
    have hnumeric : parseNumeric c h s = .unspecified .size4Msb :=
      parseNumeric_of_unspecified (by omega) (hsize ▸ (signedField_refuse hp 3).1 hmsb)
    refine exec_report_of_unspecified ?_
    simp only [evalReport, l.parse, hnumeric, bind_ok, bind_unspecified]
  · obtain ⟨h, l, -, hsize, -⟩ := header (by omega)
    have hne := (two_le_num_iff c).1 hc
    obtain ⟨raw, hraw⟩ := (signedField_refuse hp 3).2 hmsb
    have hnumeric := parseNumeric_of_value (c := c) (h := h) (s := s) (raw := raw) (by omega) (hsize.symm ▸ hraw)
    rw [numericEnd, reportDelta, if_neg hne, if_neg hne, if_neg (by omega), hsize] at hnumeric
    have hprevious := parsePrevious_of_unspecified (h := h) (s := s) (m := ⟨raw, _, 9⟩) hdelta (by simp only; omega)
      (hsize.symm ▸ (signedField_refuse hp 9).1 hmsb')
    refine exec_report_of_unspecified ?_
    simp only [evalReport, l.parse, hnumeric, hprevious, bind_ok, bind_unspecified]

end Sys2Proof.Machine

/-! What the operations do not look at (R85, R127, R129): each phase of `REPORT` answers alike on two payloads that
agree from byte 2 on and parse to one header, and on two classes that treat the header alike. -/

namespace Sys2Proof.Machine

/-- Two blocks whose inputs agree but for the payload bytes below `n`. -/
structure SameFrom (n : Nat) (s t : State) : Prop where
  len : s.len = t.len
  params : s.params = t.params
  pos : s.pos = t.pos
  bytes : ∀ k, n ≤ k → readByte s k = readByte t k

namespace SameFrom

variable {n : Nat} {s t : State}

theorem addressable_eq (h : SameFrom n s t) : addressable s = addressable t := by
  simp only [addressable, h.len]

theorem readBytes_eq (h : SameFrom n s t) {k : Nat} (hk : n ≤ k) (m : Nat) : readBytes s k m = readBytes t k m :=
  readBytes_congr fun i hi _ => h.bytes i (hk.trans hi)

end SameFrom

/-- A payload byte written below `n` leaves the rest as it was. -/
theorem sameFrom_memSet (s : State) {k n : Nat} (b : Byte) (hk : k < n) : SameFrom n
    { s with pb := memSet s.pb k b } s where
  len := rfl
  params := rfl
  pos := rfl
  bytes j hj := readByte_memSet_other s b (by omega)

/-! ## `REPORT` -/

theorem bind_congr_ok {α β : Type} {e : Eval α} {f g : α → Eval β} (h : ∀ a, e = .ok a → f a = g a) :
    e.bind f = e.bind g := by
  cases e with
  | ok a => exact h a rfl
  | reject k => rfl
  | unspecified r => rfl

/-- Two reports evaluate alike when their headers parse alike and each later phase answers alike on what can reach it.
-/
theorem evalReport_congr {c c' : VClass} {s t : State} (hheader : parseHeader c s = parseHeader c' t)
    (hnumeric : ∀ h, parseNumeric c h s = parseNumeric c' h t)
    (hprevious : ∀ h m, parseNumeric c h s = .ok m → parsePrevious h m s = parsePrevious h m t)
    (hvalidate : ∀ h m, parseHeader c s = .ok h → validateReport c h m s = validateReport c' h m t) :
    evalReport c s = evalReport c' t := by
  unfold evalReport
  rw [← hheader]
  refine bind_congr_ok fun h hh => ?_
  rw [← hnumeric]
  refine bind_congr_ok fun m hm => ?_
  rw [hprevious h m hm, hvalidate h m hh]

namespace SameFrom

variable {s t : State}

theorem parseDelta_eq (h : SameFrom 2 s t) (c : VClass) (raw : Int) {pos : Nat} (hpos : 2 ≤ pos) :
    parseDelta c raw pos s = parseDelta c raw pos t := by
  simp only [parseDelta, h.addressable_eq, h.readBytes_eq hpos]

theorem parseNumeric_eq (h : SameFrom 2 s t) (c : VClass) (hd : ReportHeader) :
    parseNumeric c hd s = parseNumeric c hd t := by
  have hdelta (raw : Int) := h.parseDelta_eq c raw (pos := 3 + hd.size) (by omega)
  simp only [parseNumeric, h.addressable_eq, h.params, h.readBytes_eq (show 2 ≤ 3 by decide), hdelta]

theorem parsePrevious_eq (h : SameFrom 2 s t) {hd : ReportHeader} {m : ReportNumeric} (hpos : 2 ≤ m.pos) :
    parsePrevious hd m s = parsePrevious hd m t := by
  simp only [parsePrevious, h.addressable_eq, h.params, h.readBytes_eq hpos]

/-- The scale-2 byte of a report of the expected length lies past the header. -/
theorem validateReport_eq (h : SameFrom 2 s t) (c : VClass) (hd : ReportHeader) (m : ReportNumeric) :
    validateReport c hd m s = validateReport c hd m t := by
  unfold validateReport
  rw [← h.len]
  split
  · rfl
  · next hlen =>
    have hlast : 2 ≤ addressable s - 1 := by
      rw [addressable_pred, not_not.1 hlen, expectedLength]
      omega
    simp only [resolveScale, ← h.addressable_eq, ← h.params, h.bytes _ hlast]

/-- Past the header the two reports read the same bytes, so a header that parses alike makes them alike. -/
theorem evalReport_eq (h : SameFrom 2 s t) {c : VClass} (hheader : parseHeader c s = parseHeader c t) :
    evalReport c s = evalReport c t := by
  refine evalReport_congr hheader (h.parseNumeric_eq c) (fun hd m hm => h.parsePrevious_eq ?_)
    fun hd m _ => h.validateReport_eq c hd m
  obtain ⟨-, -, ⟨-, -, hpos⟩ | ⟨-, -, -, hpos⟩⟩ := parseNumeric_ok hm <;> omega

/-! ## `SUPPORTED` -/

theorem orExtension_eq (h : SameFrom 1 s t) (n j mask : Nat) : orExtension s j n mask = orExtension t j n mask := by
  induction n generalizing j mask with
  | zero => rfl
  | succ n ih => simp only [orExtension, h.bytes (4 + j) (by omega), h.params, ih]

theorem evalSupported_eq (h : SameFrom 1 s t) (c : VClass) : evalSupported c s = evalSupported c t := by
  have hread {k : Nat} (hk : 1 ≤ k) := h.bytes k hk
  simp only [evalSupported, composeBitmap, extendBitmap, h.addressable_eq, h.params, h.pos, h.orExtension_eq,
    hread (show 1 ≤ 1 by decide), hread (show 1 ≤ 2 by decide), hread (show 1 ≤ 3 by decide)]

end SameFrom

/-! ## The ignored byte and bits -/

theorem outcomeView_exec_congr {i : Instr} {s t : State} (h : evalOf i s = evalOf i t) :
    outcomeView (exec i s) = outcomeView (exec i t) := by
  rw [exec_eq_finish, exec_eq_finish, outcomeView_finishOperation, outcomeView_finishOperation, h]

theorem evalOf_decodeReport (c : VClass) (s : State) : evalOf (decodeReport c) s = evalReport c s := by cases c <;> rfl

theorem evalOf_decodeSupported {c : VClass} (hc : c ≠ .v1) (s : State) :
    evalOf (decodeSupported c) s = evalSupported c s := by
  cases c with
  | v1 => exact absurd rfl hc
  | v2 => rfl
  | v3 => rfl
  | v4 => rfl
  | v5 => rfl

/-- The header phase sees the class and byte 1 through the type's bound and the three fields. -/
theorem parseHeader_congr {c c' : VClass} {s t : State} (hn : addressable s = addressable t) (hp : s.params = t.params)
    (h2 : readByte s 2 = readByte t 2) (hmax : maxQuantityType c = maxQuantityType c')
    (hqt : qtypeField (readByte s 1) = qtypeField (readByte t 1))
    (hrate : rateField c (readByte s 1) = rateField c' (readByte t 1))
    (hexporting : ∀ rate, exportingFlag t.params c rate = exportingFlag t.params c' rate)
    (hscale : composedScale c (readByte s 1) (readByte t 2) = composedScale c' (readByte t 1) (readByte t 2)) :
    parseHeader c s = parseHeader c' t := by
  unfold parseHeader
  rw [if_neg (c := ¬ rateLegal c _) (not_not.2 (rateField_legal c _)),
    if_neg (c := ¬ rateLegal c' _) (not_not.2 (rateField_legal c' _))]
  simp only [quantityTypeLegal, hn, hp, h2, hmax, hqt, hrate, hexporting, hscale]

/-- Settles O24: both operations read the payload from byte 1 on. -/
theorem commandByteIsIgnored : Obligations.CommandByteIsIgnored := by
  intro c s b
  have hbody (n : Nat) (hn : 0 < n) := sameFrom_memSet s b hn
  have h1 := (hbody 1 (by decide)).bytes 1 (by decide)
  have h2 := (hbody 2 (by decide)).bytes 2 (by decide)
  have hheader := parseHeader_congr (c := c) (hbody 2 (by decide)).addressable_eq rfl h2 rfl
    (by rw [h1]) (by rw [h1]) (fun _ => rfl) (by rw [h1])
  refine ⟨outcomeView_exec_congr ?_, outcomeView_exec_congr ?_⟩
  · rw [evalOf_decodeReport, evalOf_decodeReport, (hbody 2 (by decide)).evalReport_eq hheader]
  · by_cases hc : c = .v1
    · rw [hc]
      rfl
    · rw [evalOf_decodeSupported hc, evalOf_decodeSupported hc, (hbody 1 (by decide)).evalSupported_eq c]

/-- A report on which header byte 1 was overwritten evaluates as before where its fields are the same. -/
theorem outcomeView_report_memSet_one {c : VClass} {s : State} {b : Byte}
    (hqt : qtypeField b = qtypeField (readByte s 1)) (hrate : rateField c b = rateField c (readByte s 1))
    (hscale : composedScale c b (readByte s 2) = composedScale c (readByte s 1) (readByte s 2)) :
    outcomeView (exec (decodeReport c) { s with pb := memSet s.pb 1 b }) = outcomeView (exec (decodeReport c) s) := by
  have hbody : SameFrom 2 { s with pb := memSet s.pb 1 b } s := sameFrom_memSet s b (by decide)
  have hb := readByte_memSet_same s 1 b
  refine outcomeView_exec_congr ?_
  rw [evalOf_decodeReport, evalOf_decodeReport]
  exact hbody.evalReport_eq (parseHeader_congr hbody.addressable_eq rfl (hbody.bytes 2 (by decide)) rfl
    (by rw [hb, hqt]) (by rw [hb, hrate]) (fun _ => rfl) (by rw [hb, hscale]))

/-- Settles O46: class 1 takes the type alone from byte 1, class 2 the type and the rate. -/
theorem ignoredHeaderBits : Obligations.IgnoredHeaderBits := by
  refine ⟨fun s b hb => ?_, fun s b hb => ?_⟩
  · exact outcomeView_report_memSet_one (c := .v1) (by rw [qtypeField_eq, qtypeField_eq, hb]) rfl rfl
  · refine outcomeView_report_memSet_one (c := .v2) ?_ ?_ rfl
    · rw [qtypeField_eq, qtypeField_eq]
      omega
    · rw [rateField_eq, rateField_eq, if_neg (by decide), if_neg (by decide)]
      omega

/-! ## Neighbouring classes -/

/-- Settles O45: classes 2 and 3 compose the same scale from a clear header bit 7; classes 4 and 5 expect the same
length but for a composed 7. -/
theorem neighbouringVersionsAgree : Obligations.NeighbouringVersionsAgree := by
  refine ⟨fun s hmsb => ?_, fun s h7 => ?_⟩
  · have hhigh : (readByte s 1).toNat / 128 = 0 := by
      have hlt := BitVec.msb_eq_false_iff_two_mul_lt.1 hmsb
      omega
    have hscale :
        composedScale .v3 (readByte s 1) (readByte s 2) = composedScale .v2 (readByte s 1) (readByte s 2) := by
      rw [composedScale_eq, composedScale_eq, hhigh]
      rfl
    have hheader : parseHeader .v3 s = parseHeader .v2 s :=
      parseHeader_congr rfl rfl rfl rfl rfl rfl (fun _ => rfl) hscale
    exact congrArg (finishOperation s) (evalReport_congr hheader (fun _ => rfl) (fun _ _ _ => rfl) fun _ _ _ => rfl)
  · have hvalidate (h : ReportHeader) (m : ReportNumeric) (hh : parseHeader .v5 s = .ok h) :
        validateReport .v5 h m s = validateReport .v4 h m s := by
      have hne : h.scale3 ≠ 7 := by
        obtain ⟨-, -, -, rfl⟩ := parseHeader_ok hh
        exact (composedScale_eq .v5 (readByte s 1) (readByte s 2)).trans_ne h7
      have hlen : expectedLength .v5 h.size m.delta h.scale3 = expectedLength .v4 h.size m.delta h.scale3 := by
        simp [expectedLength, VClass.num, hne]
      rw [validateReport, validateReport, hlen, resolveScale_of_plain (fun h => hne h.2),
        resolveScale_of_plain (fun h => hne h.2)]
    have hheader : parseHeader .v5 s = parseHeader .v4 s :=
      parseHeader_congr rfl rfl rfl rfl rfl rfl (fun _ => rfl) rfl
    exact congrArg (finishOperation s) (evalReport_congr hheader (fun _ => rfl) (fun _ _ _ => rfl) hvalidate)

end Sys2Proof.Machine

/-! `SUPPORTED` run forward: how the bitmap is composed, and which payloads complete, reject or have no outcome
(R139 to R146, R149, R166). -/

namespace Sys2Proof.Machine

/-! ## The bitmap -/

theorem extensionFlag_eq (c : VClass) (b2 : Byte) : extensionFlag c b2 = (decide (4 ≤ c.num) && b2.msb) := by
  rw [extensionFlag, testBit_seven_eq_msb]

theorem composeBitmap_of_base {c : VClass} {s : State} (h : extensionFlag c (readByte s 2) = false) :
    composeBitmap c s = .ok (baseBitmap c (readByte s 2)) := by
  rw [composeBitmap, h]
  rfl

theorem composeBitmap_of_extension {c : VClass} {s : State} (hc : 4 ≤ c.num) (h : (readByte s 2).msb = true) :
    composeBitmap c s = extendBitmap (baseBitmap c (readByte s 2)) s := by
  rw [composeBitmap, if_pos]
  rw [extensionFlag_eq, h, decide_eq_true hc]
  rfl

theorem extendBitmap_of_no_count {s : State} (h : addressable s < 4) (mask : Nat) :
    extendBitmap mask s = .reject .lengthMismatch := if_pos h

theorem extendBitmap_of_overflow {s : State} (hn : 4 ≤ addressable s) (h : maxExt s.params < (readByte s 3).toNat)
    (mask : Nat) : extendBitmap mask s = .unspecified .bitmapOverflow := by
  rw [extendBitmap, if_neg (Nat.not_lt.2 hn), if_pos h]

theorem extendBitmap_of_short {s : State} (hn : 4 ≤ addressable s) (hmax : (readByte s 3).toNat ≤ maxExt s.params)
    (h : addressable s < 4 + (readByte s 3).toNat) (mask : Nat) : extendBitmap mask s = .reject .lengthMismatch := by
  rw [extendBitmap, if_neg (Nat.not_lt.2 hn), if_neg (Nat.not_lt.2 hmax), if_pos h]

theorem extendBitmap_of_fits {s : State} (hmax : (readByte s 3).toNat ≤ maxExt s.params)
    (h : 4 + (readByte s 3).toNat ≤ addressable s) (mask : Nat) :
    extendBitmap mask s = .ok (orExtension s 0 (readByte s 3).toNat mask) := by
  rw [extendBitmap, if_neg (by omega), if_neg (Nat.not_lt.2 hmax), if_neg (Nat.not_lt.2 h)]

/-! ## The operation -/

theorem evalSupported_of_short {c : VClass} {s : State} (h : addressable s < 3) :
    evalSupported c s = .reject .lengthMismatch := if_pos h

theorem evalSupported_of_illegalType {c : VClass} {s : State} (hn : 3 ≤ addressable s)
    (h : 5 < (readByte s 1).toNat % 32) : evalSupported c s = .reject (.malformedField .quantityType) := by
  rw [evalSupported, if_neg (Nat.not_lt.2 hn), qtypeField_eq, if_pos h]

/-- With a legal header the bitmap decides (R143). -/
theorem evalSupported_of_header {c : VClass} {s : State} (hn : 3 ≤ addressable s) (h : (readByte s 1).toNat % 32 ≤ 5) :
    evalSupported c s = (composeBitmap c s).bind fun mask =>
      .ok ⟨supportedResults s.params ((readByte s 1).toNat % 32) (readByte s 1).msb mask, s.pos⟩ := by
  rw [evalSupported, if_neg (Nat.not_lt.2 hn), qtypeField_eq, if_neg (Nat.not_lt.2 h), canResetField,
    testBit_seven_eq_msb]

theorem exec_supported_of_reject {c : VClass} (hc : c ≠ .v1) {s : State} {k : ErrorKind}
    (h : evalSupported c s = .reject k) : exec (decodeSupported c) s = .next (enterRejected s k) := by
  rw [exec_decodeSupported hc, h, finish_reject]

/-- Settles O50: the checks of the header, then those of the extension, in their order. -/
theorem supportedFaults : Obligations.SupportedFaults := by
  intro c s hc
  refine ⟨fun hn => ?_, fun hn hqt => ?_, fun hc4 hqt hmsb => ⟨fun hn => ?_, fun hn hover => ?_,
    fun hn hmax hshort => ?_⟩⟩
  · exact exec_supported_of_reject hc (evalSupported_of_short hn)
  · exact exec_supported_of_reject hc (evalSupported_of_illegalType hn hqt)
  · refine exec_supported_of_reject hc (k := .lengthMismatch) ?_
    rw [evalSupported_of_header (by omega) hqt, composeBitmap_of_extension hc4 hmsb, extendBitmap_of_no_count
      (by omega)]
    rfl
  · rw [exec_decodeSupported hc, evalSupported_of_header (by omega) hqt, composeBitmap_of_extension hc4 hmsb,
      extendBitmap_of_overflow hn hover]
    rfl
  · refine exec_supported_of_reject hc (k := .lengthMismatch) ?_
    rw [evalSupported_of_header (by omega) hqt, composeBitmap_of_extension hc4 hmsb,
      extendBitmap_of_short hn hmax hshort]
    rfl

theorem flatIndex_zero (qt : Nat) : flatIndex qt 0 = ((qt : Int) - 1) * 16 := Int.add_zero _

/-- A composed bitmap completes the operation, split by the registry (R142, R143). -/
theorem exec_supported_of_bitmap {c : VClass} (hc : c ≠ .v1) {s : State} {qt mask res warn : Nat}
    (hn : 3 ≤ addressable s) (hqt : qt = (readByte s 1).toNat % 32) (h5 : qt ≤ 5) (hmask : composeBitmap c s = .ok mask)
    (hres : splitMask s.params (((qt : Int) - 1) * 16) mask true s.params.bitmapBits = res)
    (hwarn : splitMask s.params (((qt : Int) - 1) * 16) mask false s.params.bitmapBits = warn) :
    exec (decodeSupported c) s = .next { s with
      phase := .done, reason := 0,
      res := { Results.zero with
        qtype := BitVec.ofNat 5 qt, flatidx := BitVec.ofInt 16 (((qt : Int) - 1) * 16), supmask := mask,
        resmask := res, warnmask := warn, canreset := (readByte s 1).msb, warn := decide (warn ≠ 0) } } := by
  subst hqt
  rw [exec_decodeSupported hc, evalSupported_of_header hn h5, hmask, bind_ok, finish_ok, supportedResults,
    flatIndex_zero,
    hres, hwarn]
  rfl

/-! ## Without an extension -/

/-- A half of the split whose registry answer every advertised bit has is the whole bitmap. -/
theorem splitMask_eq_self {p : Params} {base : Int} {mask n : Nat} {hit : Bool} (hlt : mask < 2 ^ n)
    (h : ∀ i, mask.testBit i = true → regHas p (base + i) = hit) : splitMask p base mask hit n = mask := by
  apply Nat.eq_of_testBit_eq
  intro i
  rw [splitMask_testBit_of_lt _ _ _ hlt]
  cases hi : mask.testBit i with
  | false => rfl
  | true => simp [h i hi]

/-- One whose answer no advertised bit has is empty. -/
theorem splitMask_eq_zero {p : Params} {base : Int} {mask n : Nat} {hit : Bool} (hlt : mask < 2 ^ n)
    (h : ∀ i, mask.testBit i = true → regHas p (base + i) = !hit) : splitMask p base mask hit n = 0 := by
  apply Nat.eq_of_testBit_eq
  intro i
  rw [splitMask_testBit_of_lt _ _ _ hlt, Nat.zero_testBit]
  cases hi : mask.testBit i with
  | false => rfl
  | true => simp [h i hi]

/-- Scales up to 7 are in the registry for the types 1 to 5, and for type 0 their indices are negative (R54, R149). -/
theorem regHas_of_base_bit (p : Params) {qt mask i : Nat} (h5 : qt ≤ 5) (hmask : mask < 256)
    (hi : mask.testBit i = true) : regHas p (((qt : Int) - 1) * 16 + i) = decide (qt ≠ 0) := by
  have h8 : i < 8 := by
    by_contra hge
    have hfalse := Nat.testBit_lt_two_pow (hmask.trans_le (Nat.pow_le_pow_right Nat.two_pos (Nat.le_of_not_lt hge)))
    exact Bool.false_ne_true (hfalse.symm.trans hi)
  by_cases h0 : qt = 0
  · rw [regHas_negative p (by omega)]
    simp [h0]
  · rw [regHas_low p (by omega) (by omega)]
    simp [h0]

/-- Settles O48: the base bitmap has eight bits at most, so the type alone decides how it is split. -/
theorem supportedWithoutExtensionCompletes : Obligations.SupportedWithoutExtensionCompletes := by
  intro s qt mask i hp hn hqt h5 hi
  have hb2 := (readByte s 2).isLt
  have completes (c : VClass) (hc : c ≠ .v1) (hflag : extensionFlag c (readByte s 2) = false)
      (hmask : mask = baseBitmap c (readByte s 2)) : exec (decodeSupported c) s = .next { s with
        phase := .done, reason := 0,
        res := { Results.zero with
          qtype := BitVec.ofNat 5 qt, flatidx := BitVec.ofInt 16 (((qt : Int) - 1) * 16), supmask := mask,
          resmask := if qt = 0 then 0 else mask, warnmask := if qt = 0 then mask else 0,
          canreset := (readByte s 1).msb, warn := decide (qt = 0 ∧ mask ≠ 0) } } := by
    have hlt : mask < 256 := hmask ▸ (baseBitmap_lt c _).1
    have hfits : mask < 2 ^ s.params.bitmapBits := hlt.trans_le (Nat.pow_le_pow_right Nat.two_pos hp.1)
    have hreg (i : Nat) (hi : mask.testBit i = true) := regHas_of_base_bit s.params h5 hlt hi
    have hbitmap := (composeBitmap_of_base hflag).trans (congrArg Eval.ok hmask.symm)
    by_cases h0 : qt = 0
    · have hreg : ∀ i, mask.testBit i = true → regHas s.params (((qt : Int) - 1) * 16 + i) = false := by
        simpa [h0] using hreg
      rw [exec_supported_of_bitmap hc hn hqt h5 hbitmap (splitMask_eq_zero hfits hreg) (splitMask_eq_self hfits hreg)]
      simp [h0]
    · have hreg : ∀ i, mask.testBit i = true → regHas s.params (((qt : Int) - 1) * 16 + i) = true := by
        simpa [h0] using hreg
      rw [exec_supported_of_bitmap hc hn hqt h5 hbitmap (splitMask_eq_self hfits hreg) (splitMask_eq_zero hfits hreg)]
      simp [h0]
  rcases hi with ⟨rfl, hmask⟩ | ⟨rfl, hmask⟩ | ⟨rfl, hmask, hlt⟩
  · exact completes .v2 (by decide) rfl (by rw [hmask, baseBitmap_eq])
  · exact completes .v3 (by decide) rfl (by rw [hmask, baseBitmap_eq])
  · refine completes .v4 (by decide) ?_ (by rw [baseBitmap_eq]; exact hmask.trans (Nat.mod_eq_of_lt (by omega)).symm)
    rw [extensionFlag_eq, msb_eq_decide, decide_eq_false (p := 128 ≤ _) (by omega), Bool.and_false]

/-! ## With an extension -/

/-- The bits of a byte put at bit `k` of a bitmap (R80). -/
theorem testBit_shifted_byte (b : Byte) (k i : Nat) :
    (b.toNat <<< k).testBit i = true ↔ ∃ j, j < 8 ∧ i = k + j ∧ b.getLsbD j = true := by
  rw [Nat.testBit_shiftLeft, Bool.and_eq_true, decide_eq_true_iff]
  constructor
  · rintro ⟨hk, hbit⟩
    exact ⟨i - k, BitVec.lt_of_getLsbD hbit, by omega, hbit⟩
  · rintro ⟨j, -, rfl, hbit⟩
    exact ⟨by omega, by rwa [Nat.add_sub_cancel_left]⟩

/-- The bits of an extended bitmap: those of byte 2 below its flag, and the extension bytes' (R141). -/
theorem extended_testBit (s : State) (n i : Nat) :
    (orExtension s 0 n (baseBitmap .v4 (readByte s 2))).testBit i = true ↔
      (i < 7 ∧ (readByte s 2).getLsbD i = true) ∨
      ∃ j k, j < n ∧ k < 8 ∧ i = supExtBit s.params + 8 * j + k ∧ (readByte s (4 + j)).getLsbD k = true := by
  have hbase : (baseBitmap .v4 (readByte s 2)).testBit i = true ↔ i < 7 ∧ (readByte s 2).getLsbD i = true := by
    rw [baseBitmap_eq]
    show ((readByte s 2).toNat % 2 ^ 7).testBit i = true ↔ _
    rw [Nat.testBit_mod_two_pow, Bool.and_eq_true, decide_eq_true_iff]
    rfl
  simp only [orExtension_testBit, hbase, testBit_shifted_byte]
  refine or_congr_right ⟨?_, ?_⟩
  · rintro ⟨j, -, hj, k, hk, hi, hbit⟩
    exact ⟨j, k, by omega, hk, hi, hbit⟩
  · rintro ⟨j, k, hj, hk, hi, hbit⟩
    exact ⟨j, Nat.zero_le j, by omega, k, hk, hi, hbit⟩

/-- Settles O49: the extended bitmap fits `BITMAP_BITS`, so its halves are filters by the registry. -/
theorem supportedWithExtensionCompletes : Obligations.SupportedWithExtensionCompletes := by
  rintro s qt n hp hqt h5 hmsb rfl hmax hn
  have hbitmap := (composeBitmap_of_extension (c := .v4) (by decide) hmsb).trans (extendBitmap_of_fits hmax hn _)
  have hfits := composeBitmap_lt hp hbitmap
  refine ⟨_, _, _, exec_supported_of_bitmap (c := .v4) (by decide) (by omega) hqt h5 hbitmap rfl rfl,
    extended_testBit s _, fun i => ?_, fun i => ?_⟩
  · rw [splitMask_testBit_of_lt _ _ _ hfits, beq_true]
  · rw [splitMask_testBit_of_lt _ _ _ hfits, beq_false]

end Sys2Proof.Machine

/-! The float of a value (R105). The binary64 numbers from `2^52 * 2^e` up are multiples of `2^e`, in units of
`2^-1075`; the significand is the multiple nearest to the value, ties to even; and every number below is further away.
-/

namespace Sys2Proof.Machine

/-! ## Division to the nearest -/

/-- How far a multiple of `d` not above the quotient lies from `a`. -/
theorem abs_mul_sub_of_le_div {a d : Nat} {k : ℤ} (h : k ≤ (a / d : Nat)) :
    |k * d - a| = (a % d : Nat) + ((a / d : Nat) - k) * d := by
  have ha : (a : ℤ) = d * (a / d : Nat) + (a % d : Nat) := by exact_mod_cast (Nat.div_add_mod a d).symm
  have hgap : 0 ≤ (((a / d : Nat) : ℤ) - k) * d := mul_nonneg (sub_nonneg.2 h) (Int.natCast_nonneg d)
  rw [abs_of_nonpos (by linarith)]
  linarith

/-- And one above it. -/
theorem abs_mul_sub_of_div_lt {a d : Nat} (hd : 0 < d) {k : ℤ} (h : (a / d : Nat) < k) :
    |k * d - a| = (d - (a % d : Nat)) + (k - (a / d : Nat) - 1) * d := by
  have ha : (a : ℤ) = d * (a / d : Nat) + (a % d : Nat) := by exact_mod_cast (Nat.div_add_mod a d).symm
  have hrem : ((a % d : Nat) : ℤ) < d := by exact_mod_cast Nat.mod_lt a hd
  have hgap : 0 ≤ (k - (a / d : Nat) - 1) * (d : ℤ) := mul_nonneg (by omega) (Int.natCast_nonneg d)
  rw [abs_of_nonneg (by linarith)]
  linarith

/-- The rounded quotient is nearest among all integers, and even where another is as near. -/
theorem divNearestEven_nearest {a d : Nat} (hd : 0 < d) (k : ℤ) :
    |(divNearestEven a d : ℤ) * d - a| ≤ |k * d - a| ∧
      (|(divNearestEven a d : ℤ) * d - a| = |k * d - a| → k ≠ divNearestEven a d → divNearestEven a d % 2 = 0) := by
  have hd' : (0 : ℤ) < d := by exact_mod_cast hd
  have below (h : k ≤ (a / d : Nat)) :
      0 ≤ (((a / d : Nat) : ℤ) - k) * d ∧ ((((a / d : Nat) : ℤ) - k) * d = 0 → k = (a / d : Nat)) :=
    ⟨mul_nonneg (sub_nonneg.2 h) hd'.le, fun h0 => by rcases mul_eq_zero.1 h0 with h0 | h0 <;> omega⟩
  have above (h : (a / d : Nat) < k) :
      0 ≤ (k - (a / d : Nat) - 1) * (d : ℤ) ∧ ((k - (a / d : Nat) - 1) * (d : ℤ) = 0 → k = (a / d : Nat) + 1) :=
    ⟨mul_nonneg (by omega) hd'.le, fun h0 => by rcases mul_eq_zero.1 h0 with h0 | h0 <;> omega⟩
  unfold divNearestEven
  split
  · next hup =>
    have hr := abs_mul_sub_of_div_lt hd (a := a) (k := (a / d + 1 : Nat)) (by omega)
    have hgap : (((a / d + 1 : Nat) : ℤ) - (a / d : Nat) - 1) * d = 0 := by push_cast; ring
    rw [hgap, add_zero] at hr
    rw [hr]
    rcases le_or_gt k (a / d : Nat) with h | h
    · obtain ⟨hnn, -⟩ := below h
      rw [abs_mul_sub_of_le_div h]
      exact ⟨by omega, fun _ _ => by omega⟩
    · obtain ⟨hnn, hzero⟩ := above h
      rw [abs_mul_sub_of_div_lt hd h]
      exact ⟨by omega, fun he hne => absurd (hzero (by omega)) (by exact_mod_cast hne)⟩
  · next hdown =>
    have hr := abs_mul_sub_of_le_div (a := a) (d := d) (k := (a / d : Nat)) le_rfl
    rw [sub_self, zero_mul, add_zero] at hr
    rw [hr]
    rcases le_or_gt k (a / d : Nat) with h | h
    · obtain ⟨hnn, hzero⟩ := below h
      rw [abs_mul_sub_of_le_div h]
      exact ⟨by omega, fun he hne => absurd (hzero (by omega)) hne⟩
    · obtain ⟨hnn, -⟩ := above h
      rw [abs_mul_sub_of_div_lt hd h]
      exact ⟨by omega, fun _ _ => by omega⟩

/-! ## The binary64 numbers -/

theorem floatFraction_lt (b : BitVec 64) : floatFraction b < 2 ^ 52 := Nat.mod_lt _ (by decide)

/-- The units of a normal number lie between two powers of two. -/
theorem floatUnits_of_normal {b : BitVec 64} (h : floatExponent b ≠ 0) :
    floatUnits b = (2 ^ 52 + floatFraction b) * 2 ^ floatExponent b := if_neg h

theorem floatUnits_lt (b : BitVec 64) : floatUnits b < 2 ^ (53 + floatExponent b) := by
  have hfrac := floatFraction_lt b
  unfold floatUnits
  split
  · next h => rw [h]; omega
  · rw [pow_add]
    exact Nat.mul_lt_mul_of_pos_right (by omega) (Nat.two_pow_pos _)

theorem le_floatUnits_of_normal {b : BitVec 64} (h : floatExponent b ≠ 0) : 2 ^
    (52 + floatExponent b) ≤ floatUnits b := by
  rw [floatUnits_of_normal h, pow_add]
  exact Nat.mul_le_mul_right _ (Nat.le_add_right _ _)

/-- The spacing of the binary64 numbers: below `2^52 * 2^e`, or a multiple of `2^e`. -/
theorem floatUnits_lt_or_dvd (b : BitVec 64) {e : Nat} (he : 1 ≤ e) :
    floatUnits b < 2 ^ (52 + e) ∨ 2 ^ e ∣ floatUnits b := by
  rcases Nat.lt_or_ge (floatExponent b) e with h | h
  · exact .inl ((floatUnits_lt b).trans_le (Nat.pow_le_pow_right Nat.two_pos (by omega)))
  · rw [floatUnits_of_normal (by omega)]
    exact .inr ((pow_dvd_pow 2 h).mul_left _)

theorem toNat_eq_fields (b : BitVec 64) :
    b.toNat = b.msb.toNat * 2 ^ 63 + floatExponent b * 2 ^ 52 + floatFraction b := by
  have hlt := b.isLt
  rw [BitVec.msb_eq_decide, floatExponent, floatFraction]
  by_cases h : 2 ^ (64 - 1) ≤ b.toNat
  · rw [decide_eq_true h, Bool.toNat_true]
    omega
  · rw [decide_eq_false h, Bool.toNat_false]
    omega

theorem floatExponent_le_of_units_eq {b b' : BitVec 64} (h : floatUnits b = floatUnits b') :
    floatExponent b ≤ floatExponent b' := by
  by_contra hlt
  have hlo := le_floatUnits_of_normal (b := b) (by omega)
  have hhi := floatUnits_lt b'
  have hpow : 2 ^ (53 + floatExponent b') ≤ 2 ^ (52 + floatExponent b) := Nat.pow_le_pow_right Nat.two_pos (by omega)
  omega

/-- Sign and magnitude name a binary64. -/
theorem eq_of_msb_eq_of_units_eq {b b' : BitVec 64} (hmsb : b.msb = b'.msb) (hunits : floatUnits b = floatUnits b') :
    b = b' := by
  have hexp : floatExponent b = floatExponent b' :=
    le_antisymm (floatExponent_le_of_units_eq hunits) (floatExponent_le_of_units_eq hunits.symm)
  have hfrac : floatFraction b = floatFraction b' := by
    unfold floatUnits at hunits
    rw [hexp] at hunits
    split at hunits
    · omega
    · have := Nat.eq_of_mul_eq_mul_right (Nat.two_pow_pos _) hunits
      omega
  apply BitVec.eq_of_toNat_eq
  rw [toNat_eq_fields b, toNat_eq_fields b', hmsb, hexp, hfrac]

/-! ## The bits of a normal number -/

/-- The normal number of magnitude `sig * 2^e` units, for a significand that may have carried into the next power. -/
structure IsNormal (b : BitVec 64) (neg : Bool) (sig e : Nat) : Prop where
  msb : b.msb = neg
  exponent_pos : 1 ≤ floatExponent b
  exponent_lt : floatExponent b < 2047
  units : floatUnits b = sig * 2 ^ e
  parity : b.getLsbD 0 = decide (sig % 2 = 1)

/-- The bits of a float from its exponent and fraction fields. -/
theorem float_fields_of_toNat {b : BitVec 64} {neg : Bool} {expo frac : Nat}
    (h : b.toNat = neg.toNat * 2 ^ 63 + expo * 2 ^ 52 + frac) (hexpo : expo < 2048) (hfrac : frac < 2 ^ 52) :
    b.msb = neg ∧ floatExponent b = expo ∧ floatFraction b = frac := by
  rw [BitVec.msb_eq_decide, floatExponent, floatFraction, h]
  cases neg with
  | false => refine ⟨decide_eq_false ?_, ?_, ?_⟩ <;> rw [Bool.toNat_false] <;> omega
  | true => refine ⟨decide_eq_true ?_, ?_, ?_⟩ <;> rw [Bool.toNat_true] <;> omega

theorem isNormal_of_toNat {b : BitVec 64} {neg : Bool} {sig e : Nat} (he : 1 ≤ e) (he' : e < 2046) (hlo : 2 ^ 52 ≤ sig)
    (hhi : sig ≤ 2 ^ 53) (h : b.toNat = neg.toNat * 2 ^ 63 + e * 2 ^ 52 + (sig - 2 ^ 52)) : IsNormal b neg sig e := by
  have hparity : b.getLsbD 0 = decide (sig % 2 = 1) := by
    rw [BitVec.getLsbD, Nat.testBit_zero, h, decide_eq_decide]
    omega
  rcases Nat.lt_or_ge sig (2 ^ 53) with hlt | hge
  · obtain ⟨hmsb, hexpo, hfrac⟩ := float_fields_of_toNat h (by omega) (by omega)
    refine ⟨hmsb, by omega, by omega, ?_, hparity⟩
    rw [floatUnits_of_normal (by omega), hexpo, hfrac, Nat.add_sub_cancel' hlo]
  · have hsig : sig = 2 ^ 53 := le_antisymm hhi hge
    rw [show sig - 2 ^ 52 = 2 ^ 52 by omega] at h
    obtain ⟨hmsb, hexpo, hfrac⟩ :=
      float_fields_of_toNat (neg := neg) (expo := e + 1) (frac := 0) (by rw [h]; ring) (by omega) (by decide)
    refine ⟨hmsb, by omega, by omega, ?_, hparity⟩
    rw [floatUnits_of_normal (by omega), hexpo, hfrac, hsig, Nat.add_zero, pow_succ 2 e, pow_succ 2 52]
    ring

/-! ## The significand -/

/-- `L` is the exponent of `m * 2^64 / d`. -/
theorem quotientLog_bounds {m d : Nat} (hd : 0 < d) (hle : d ≤ m * 2 ^ 64) :
    2 ^ quotientLog m d * d ≤ m * 2 ^ 64 ∧ m * 2 ^ 64 < 2 ^ (quotientLog m d + 1) * d := by
  have hq : (m <<< 64) / d ≠ 0 := by
    rw [Nat.shiftLeft_eq]
    exact (Nat.div_pos hle hd).ne'
  have hlo := Nat.log2_self_le hq
  have hhi := Nat.lt_log2_self (n := (m <<< 64) / d)
  rw [← quotientLog, Nat.shiftLeft_eq] at hlo hhi
  exact ⟨(Nat.le_div_iff_mul_le hd).1 hlo, (Nat.div_lt_iff_lt_mul hd).1 hhi⟩

theorem quotientLog_lt {m d : Nat} (hm : m < 2 ^ 32) (hd : 0 < d) (hle : d ≤ m * 2 ^ 64) : quotientLog m d < 96 := by
  obtain ⟨hlo, -⟩ := quotientLog_bounds hd hle
  rw [← Nat.pow_lt_pow_iff_right (a := 2) (by decide)]
  calc 2 ^ quotientLog m d ≤ 2 ^ quotientLog m d * d := Nat.le_mul_of_pos_right _ hd
    _ ≤ m * 2 ^ 64 := hlo
    _ < 2 ^ 96 := by omega

/-- The dividend of the significand, as a number of `2^-(116 - L)`. -/
theorem scaled_mul_pow {m d : Nat} (h : quotientLog m d < 96) :
    (m <<< (116 - quotientLog m d)) * 2 ^ quotientLog m d = m * 2 ^ 64 * 2 ^ 52 := by
  rw [Nat.shiftLeft_eq, mul_assoc, mul_assoc, ← pow_add, ← pow_add, Nat.sub_add_cancel (by omega)]

/-- The scale is chosen so that the significand has 53 bits. -/
theorem scaled_bounds {m d : Nat} (hm : m < 2 ^ 32) (hd : 0 < d) (hle : d ≤ m * 2 ^ 64) :
    2 ^ 52 * d ≤ m <<< (116 - quotientLog m d) ∧ m <<< (116 - quotientLog m d) < 2 ^ 53 * d := by
  obtain ⟨hlo, hhi⟩ := quotientLog_bounds hd hle
  have hscaled := scaled_mul_pow (quotientLog_lt hm hd hle)
  have hpos : 0 < 2 ^ quotientLog m d := Nat.two_pow_pos _
  refine ⟨Nat.le_of_mul_le_mul_right ?_ hpos, Nat.lt_of_mul_lt_mul_right (a := 2 ^ quotientLog m d) ?_⟩
  · rw [hscaled]
    calc 2 ^ 52 * d * 2 ^ quotientLog m d = 2 ^ quotientLog m d * d * 2 ^ 52 := by ring
      _ ≤ m * 2 ^ 64 * 2 ^ 52 := Nat.mul_le_mul_right _ hlo
  · rw [hscaled]
    calc m * 2 ^ 64 * 2 ^ 52 < 2 ^ (quotientLog m d + 1) * d * 2 ^ 52 := Nat.mul_lt_mul_of_pos_right hhi (by decide)
      _ = 2 ^ 53 * d * 2 ^ quotientLog m d := by rw [pow_succ]; ring

theorem divNearestEven_bounds {a d lo hi : Nat} (hd : 0 < d) (hlo : lo * d ≤ a) (hhi : a < hi * d) :
    lo ≤ divNearestEven a d ∧ divNearestEven a d ≤ hi := by
  have h1 : lo ≤ a / d := (Nat.le_div_iff_mul_le hd).2 hlo
  have h2 : a / d < hi := (Nat.div_lt_iff_lt_mul hd).2 hhi
  unfold divNearestEven
  split <;> omega

/-! ## The nearest number -/

/-- Among the numbers of a binary64's spacing, the rounded significand is nearest to `a * 2^e / d`; where another is as
near, it is even. -/
theorem significand_nearest {a d e : Nat} (hd : 0 < d) (hlo : 2 ^ 52 * d ≤ a) {V : ℤ}
    (hV : V < 2 ^ (52 + e) ∨ (2 ^ e : ℤ) ∣ V) :
    |(divNearestEven a d * 2 ^ e : ℤ) * d - a * 2 ^ e| ≤ |V * d - a * 2 ^ e| ∧
      (|(divNearestEven a d * 2 ^ e : ℤ) * d - a * 2 ^ e| = |V * d - a * 2 ^ e| → V ≠ divNearestEven a d * 2 ^ e →
        divNearestEven a d % 2 = 0) := by
  have hpow : (0 : ℤ) < 2 ^ e := by positivity
  have hd' : (0 : ℤ) < d := by exact_mod_cast hd
  have hscale (k : ℤ) : |k * 2 ^ e * d - a * 2 ^ e| = |k * d - a| * 2 ^ e := by
    rw [← abs_of_pos hpow, ← abs_mul, abs_of_pos hpow]
    ring_nf
  rw [hscale]
  rcases hV with hV | ⟨k, rfl⟩
  · have hlo' : (2 ^ 52 * d : ℤ) ≤ a := by exact_mod_cast hlo
    have hnear : |(divNearestEven a d : ℤ) * d - a| * 2 ^ e ≤ |2 ^ 52 * d - (a : ℤ)| * 2 ^ e :=
      mul_le_mul_of_nonneg_right (divNearestEven_nearest hd (2 ^ 52)).1 hpow.le
    have hfar : |2 ^ 52 * d - (a : ℤ)| * 2 ^ e < |V * d - a * 2 ^ e| := by
      rw [pow_add] at hV
      have hVd : V * d < 2 ^ 52 * 2 ^ e * d := mul_lt_mul_of_pos_right hV hd'
      have had : 2 ^ 52 * d * 2 ^ e ≤ (a : ℤ) * 2 ^ e := mul_le_mul_of_nonneg_right hlo' hpow.le
      rw [abs_of_nonpos (sub_nonpos.2 hlo'), abs_of_neg (by linarith)]
      linarith
    exact ⟨(hnear.trans_lt hfar).le, fun he _ => absurd he (hnear.trans_lt hfar).ne⟩
  · obtain ⟨hle, htie⟩ := divNearestEven_nearest (a := a) hd k
    rw [mul_comm (2 ^ e) k, hscale]
    refine ⟨mul_le_mul_of_nonneg_right hle hpow.le, fun he hne => htie (mul_right_cancel₀ hpow.ne' he) ?_⟩
    rintro rfl
    exact hne rfl

/-- `-1` for a set sign. -/
def signOf (neg : Bool) : ℤ := if neg then -1 else 1

theorem signOf_mul_self (neg : Bool) : signOf neg * signOf neg = 1 := by cases neg <;> rfl

theorem abs_signOf (neg : Bool) : |signOf neg| = 1 := by cases neg <;> rfl

theorem signOf_mul_natAbs (raw : Int) : signOf (decide (raw < 0)) * raw.natAbs = raw := by
  rcases lt_or_ge raw 0 with h | h
  · rw [decide_eq_true h, signOf, if_pos rfl]
    omega
  · rw [decide_eq_false (not_lt.2 h), signOf, if_neg Bool.false_ne_true]
    omega

/-- The magnitude of a float with the sign it has relative to `neg`. -/
def relativeUnits (neg : Bool) (b : BitVec 64) : ℤ := signOf neg * signOf b.msb * floatUnits b

theorem floatValue_eq (b : BitVec 64) : floatValue b = (signOf b.msb * floatUnits b : ℤ) / 2 ^ 1075 := by
  rw [floatValue, signOf]
  push_cast
  rfl

theorem abs_relativeUnits (neg : Bool) (b : BitVec 64) : |relativeUnits neg b| = floatUnits b := by
  rw [relativeUnits, abs_mul, abs_mul, abs_signOf, abs_signOf, Nat.abs_cast, one_mul, one_mul]

/-- The distance of a float from `± m / d`, over one denominator. -/
theorem abs_floatValue_sub (b : BitVec 64) (neg : Bool) (m : Nat) {d : Nat} (hd : 0 < d) :
    |floatValue b - (signOf neg * m : ℤ) / d| =
      (|relativeUnits neg b * d - m * 2 ^ 1075| : ℤ) / (2 ^ 1075 * d : ℚ) := by
  have hd' : (d : ℚ) ≠ 0 := by exact_mod_cast hd.ne'
  have hsign : (signOf neg : ℚ) * signOf neg = 1 := by exact_mod_cast signOf_mul_self neg
  have habs : |(signOf neg : ℚ)| = 1 := by exact_mod_cast abs_signOf neg
  have hunit : (2 ^ 1075 : ℚ) ≠ 0 := by positivity
  have hden : (0 : ℚ) < 2 ^ 1075 * d := by positivity
  have hvalue : floatValue b - (signOf neg * m : ℤ) / d =
      signOf neg * ((relativeUnits neg b * d - m * 2 ^ 1075 : ℤ) / (2 ^ 1075 * d)) := by
    rw [floatValue_eq, relativeUnits]
    simp only [Int.cast_sub, Int.cast_mul, Int.cast_pow, Int.cast_natCast, Int.cast_ofNat]
    generalize (2 ^ 1075 : ℚ) = c at hunit
    field_simp
    linear_combination (-(signOf b.msb : ℚ) * floatUnits b * d) * hsign
  rw [hvalue, abs_mul, habs, one_mul, abs_div, abs_of_pos hden, Int.cast_abs]

theorem relativeUnits_lt_or_dvd (neg : Bool) (b : BitVec 64) {e : Nat} (he : 1 ≤ e) :
    relativeUnits neg b < 2 ^ (52 + e) ∨ (2 ^ e : ℤ) ∣ relativeUnits neg b := by
  rcases floatUnits_lt_or_dvd b he with h | h
  · have hle : relativeUnits neg b ≤ floatUnits b := (le_abs_self _).trans_eq (abs_relativeUnits neg b)
    exact .inl (hle.trans_lt (by exact_mod_cast h))
  · exact .inr (Dvd.dvd.mul_left (by exact_mod_cast h) _)

theorem IsNormal.relativeUnits_eq {b : BitVec 64} {neg : Bool} {sig e : Nat} (h : IsNormal b neg sig e) :
    relativeUnits neg b = sig * 2 ^ e := by
  rw [relativeUnits, h.msb, signOf_mul_self, h.units, one_mul]
  norm_cast

/-- A normal number is named by its magnitude and sign. -/
theorem IsNormal.eq_of_relativeUnits_eq {b b' : BitVec 64} {neg : Bool} {sig e : Nat} (h : IsNormal b neg sig e)
    (hsig : 0 < sig) (heq : relativeUnits neg b' = sig * 2 ^ e) : b' = b := by
  have hpos : (0 : ℤ) < sig * 2 ^ e := by positivity
  have hunits : floatUnits b' = sig * 2 ^ e := by
    have := abs_relativeUnits neg b'
    rw [heq, abs_of_pos hpos] at this
    exact_mod_cast this.symm
  have hmsb : b'.msb = neg := by
    by_contra hne
    have hneg : signOf neg * signOf b'.msb = -1 := by
      cases neg <;> cases hb : b'.msb <;> simp_all [signOf]
    rw [relativeUnits, hneg, hunits] at heq
    push_cast at heq
    omega
  exact eq_of_msb_eq_of_units_eq (hmsb.trans h.msb.symm) (hunits.trans h.units.symm)

/-! ## `tofloat` -/

theorem toNat_toFloat {raw : Int} {p : Nat} (hraw : raw ≠ 0) (h : positiveFloatBits raw.natAbs (10 ^ p) < 2 ^ 63) :
    (toFloat raw p).toNat = (decide (raw < 0)).toNat * 2 ^ 63 + positiveFloatBits raw.natAbs (10 ^ p) := by
  rw [toFloat, if_neg hraw, BitVec.toNat_ofNat]
  by_cases hneg : raw < 0
  · rw [if_pos hneg, decide_eq_true hneg, Bool.toNat_true]
    omega
  · rw [if_neg hneg, decide_eq_false hneg, Bool.toNat_false]
    omega

/-- The significand of `m / d`, as `positiveFloatBits` rounds it. -/
def significand (m d : Nat) : Nat := divNearestEven (m <<< (116 - quotientLog m d)) d

theorem significand_bounds {m d : Nat} (hm : m < 2 ^ 32) (hd : 0 < d) (hle : d ≤ m * 2 ^ 64) :
    2 ^ 52 ≤ significand m d ∧ significand m d ≤ 2 ^ 53 := by
  obtain ⟨hlo, hhi⟩ := scaled_bounds hm hd hle
  exact divNearestEven_bounds hd hlo hhi

/-- A power of ten up to `10^7` divides into every magnitude with bits to spare. -/
theorem pow_ten_le {m p : Nat} (hm : 0 < m) (hp : p ≤ 7) : 10 ^ p ≤ m * 2 ^ 64 :=
  calc 10 ^ p ≤ 10 ^ 7 := Nat.pow_le_pow_right (by decide) hp
    _ ≤ 1 * 2 ^ 64 := by decide
    _ ≤ m * 2 ^ 64 := Nat.mul_le_mul_right _ hm

theorem toFloat_isNormal {raw : Int} {p : Nat} (hraw : raw ≠ 0) (hm : raw.natAbs < 2 ^ 32) (hp : p ≤ 7) :
    IsNormal (toFloat raw p) (decide (raw < 0)) (significand raw.natAbs (10 ^ p))
      (quotientLog raw.natAbs (10 ^ p) + 959) := by
  have hle := pow_ten_le (Int.natAbs_pos.2 hraw) hp
  have hd : 0 < 10 ^ p := by positivity
  have hlog := quotientLog_lt hm hd hle
  obtain ⟨hlo, hhi⟩ := significand_bounds hm hd hle
  have hbits : positiveFloatBits raw.natAbs (10 ^ p) =
      (quotientLog raw.natAbs (10 ^ p) + 959) * 2 ^ 52 + (significand raw.natAbs (10 ^ p) - 2 ^ 52) := rfl
  refine isNormal_of_toNat (by omega) (by omega) hlo hhi ?_
  rw [toNat_toFloat hraw (by omega), hbits, Nat.add_assoc]

/-- The dividend of the significand is the value in units of `2^-1075`. -/
theorem scaled_mul_units {m d : Nat} (h : quotientLog m d < 96) :
    ((m <<< (116 - quotientLog m d) : Nat) : ℤ) * 2 ^ (quotientLog m d + 959) = m * 2 ^ 1075 := by
  rw [Nat.shiftLeft_eq, Nat.cast_mul, Nat.cast_pow, Nat.cast_ofNat, mul_assoc, ← pow_add,
    show 116 - quotientLog m d + (quotientLog m d + 959) = 1075 by omega]

/-- `toFloat` is nearest among all floats, over the common denominator; where another is as near, its significand is
even. -/
theorem toFloat_nearest {raw : Int} {p : Nat} (hraw : raw ≠ 0) (hm : raw.natAbs < 2 ^ 32) (hp : p ≤ 7) (b : BitVec 64) :
    |relativeUnits (decide (raw < 0)) (toFloat raw p) * (10 ^ p : Nat) - raw.natAbs * 2 ^ 1075| ≤
        |relativeUnits (decide (raw < 0)) b * (10 ^ p : Nat) - raw.natAbs * 2 ^ 1075| ∧
      (|relativeUnits (decide (raw < 0)) (toFloat raw p) * (10 ^ p : Nat) - raw.natAbs * 2 ^ 1075| =
          |relativeUnits (decide (raw < 0)) b * (10 ^ p : Nat) - raw.natAbs * 2 ^ 1075| →
        b ≠ toFloat raw p → significand raw.natAbs (10 ^ p) % 2 = 0) := by
  have hle := pow_ten_le (Int.natAbs_pos.2 hraw) hp
  have hd : 0 < 10 ^ p := by positivity
  have hnormal := toFloat_isNormal hraw hm hp
  have hpos : 0 < significand raw.natAbs (10 ^ p) :=
    (Nat.two_pow_pos 52).trans_le (significand_bounds hm hd hle).1
  obtain ⟨hnear, htie⟩ := significand_nearest hd (scaled_bounds hm hd hle).1
    (relativeUnits_lt_or_dvd (decide (raw < 0)) b (e := quotientLog raw.natAbs (10 ^ p) + 959) (by omega))
  rw [scaled_mul_units (quotientLog_lt hm hd hle), ← significand, ← hnormal.relativeUnits_eq] at hnear htie
  exact ⟨hnear, fun he hne => htie he fun heq =>
    hne (hnormal.eq_of_relativeUnits_eq hpos (heq.trans hnormal.relativeUnits_eq))⟩

/-- Settles O32: the distances of two floats from the value are compared over one denominator, in integers. -/
theorem floatIsNearest : Obligations.FloatIsNearest := by
  refine fun raw p hm hp => ⟨fun h0 => if_pos h0, fun hraw => ?_⟩
  have hd : 0 < 10 ^ p := by positivity
  have hden : (0 : ℚ) < 2 ^ 1075 * (10 ^ p : Nat) := by positivity
  have hvalue : (raw : ℚ) / 10 ^ p = (signOf (decide (raw < 0)) * raw.natAbs : ℤ) / (10 ^ p : Nat) := by
    rw [signOf_mul_natAbs, Nat.cast_pow, Nat.cast_ofNat]
  have hnormal := toFloat_isNormal hraw hm hp
  refine ⟨hnormal.exponent_pos, hnormal.exponent_lt, hnormal.msb, fun b _ => ?_⟩
  obtain ⟨hnear, htie⟩ := toFloat_nearest hraw hm hp b
  rw [hvalue, abs_floatValue_sub _ _ _ hd, abs_floatValue_sub _ _ _ hd, div_le_div_iff_of_pos_right hden,
    div_left_inj' hden.ne', hnormal.parity]
  refine ⟨by exact_mod_cast hnear, fun he hne => decide_eq_false ?_⟩
  have heven := htie (by exact_mod_cast he) hne
  omega

end Sys2Proof.Machine
